-- ==== Sys2Proof/Word.lean ====
section
/-! DEFINITION. The word types. Every value of this hardware is unsigned (00_scope section 5). -/

namespace Sys2Proof

/-- A cell of the tape, an input byte, an output byte: `CELL_W` = 8 bits (R4). -/
abbrev Byte := BitVec 8

/-- A stored opcode: `OP_W` = 4 bits, bit 0 the least significant (R5, R52; D18). -/
abbrev Code := BitVec 4

end Sys2Proof
end

