-- ==== Sys2Proof/Config.lean ====
section
/-! DEFINITION. What construction fixes (R3, R5, R21). There is no free value: no element of state is ever
undefined (R28). -/

namespace Sys2Proof

/-- `CAP`, the tape's capacity in cells: 16 for this hardware (R3; log 1). -/
abbrev Config.cap : Nat := 16

/-- Every rule is meaningful for any `CAP >= 1` (R3). -/
theorem Config.cap_pos : 0 < Config.cap := by decide

/-- `PROG_CAP`, the largest Program length counting the `HALT`. `none` is unbounded.
DESIGN CHOICE (R5, D5: OPEN, "a model may take it unbounded"; log 2). -/
def Config.progCap : Option Nat := none

/-- `IN_CAP`, the InputQueue's capacity in bytes. `none` is unbounded.
DESIGN CHOICE (R5, D7: OPEN, "default unbounded"; log 2). -/
def Config.inCap : Option Nat := none

/-- `OUT_CAP`, the OutputSequence's capacity in bytes. `none` is unbounded.
DESIGN CHOICE (R5, D7: OPEN, "default unbounded"; log 2). -/
def Config.outCap : Option Nat := none

end Sys2Proof
end

