-- ==== Sys2Proof/Syntax.lean ====
section
/-! DEFINITION. The instruction set: a closed set of ten opcodes, none with an operand (R50, R51, R54). -/

namespace Sys2Proof

/-- One constructor per row of spec/opcode_table.json (R50). -/
inductive Instr where
  /-- `NOP` (R71) -/
  | nop
  /-- `INC` (R72) -/
  | inc
  /-- `DEC` (R73) -/
  | dec
  /-- `PTR_LEFT` (R81) -/
  | ptrLeft
  /-- `PTR_RIGHT` (R82) -/
  | ptrRight
  /-- `READ` (R90) -/
  | read
  /-- `WRITE` (R91) -/
  | write
  /-- `LOOP_START` (R100) -/
  | loopStart
  /-- `LOOP_END` (R101) -/
  | loopEnd
  /-- `HALT` (R115) -/
  | halt
deriving DecidableEq, Repr

end Sys2Proof
end

