-- ==== Sys2Proof/Decode.lean ====
section
/-! DEFINITION. The two levels of encoding (30_encoding): stored 4-bit codes, and the source tokens that
`loadProgram` maps to them; the decoder, the encoder, the token map. -/

namespace Sys2Proof

/-- Why `decode` gives no opcode for a stored code. -/
inductive DecodeReject where
  /-- Codes 10..15 are reserved (R52, R58). -/
  | reserved (c : Code)
deriving DecidableEq, Repr

/-- The opcode a stored code names, by the table of R52 (codes are decision D1; log 20); codes 10..15 name none
and are rejected as reserved (R58). -/
def decode (c : Code) : Except DecodeReject Instr :=
  match c with
  | 0b0000#4 => .ok .nop
  | 0b0001#4 => .ok .inc
  | 0b0010#4 => .ok .dec
  | 0b0011#4 => .ok .ptrLeft
  | 0b0100#4 => .ok .ptrRight
  | 0b0101#4 => .ok .read
  | 0b0110#4 => .ok .write
  | 0b0111#4 => .ok .loopStart
  | 0b1000#4 => .ok .loopEnd
  | 0b1001#4 => .ok .halt
  | c => .error (.reserved c)

/-- The action a stored entry selects, total on all sixteen codes (R55): a reserved code executes as `NOP` and
raises nothing (R58, D2; log 4). -/
def decodeEntry (c : Code) : Instr :=
  match decode c with
  | .ok i => i
  | .error (.reserved _) => .nop

/-- The stored code of an opcode (R52). -/
def encode : Instr → Code
  | .nop => 0b0000#4
  | .inc => 0b0001#4
  | .dec => 0b0010#4
  | .ptrLeft => 0b0011#4
  | .ptrRight => 0b0100#4
  | .read => 0b0101#4
  | .write => 0b0110#4
  | .loopStart => 0b0111#4
  | .loopEnd => 0b1000#4
  | .halt => 0b1001#4

/-- `TokenToOpcode` on one byte of the load port (R56; the byte values are ASCII, which the spec
takes from general knowledge, G1; UNVERIFIED, log 11). -/
def byteToOpcode (b : Byte) : Instr :=
  match b with
  | 0x2B#8 => .inc
  | 0x2D#8 => .dec
  | 0x3C#8 => .ptrLeft
  | 0x3E#8 => .ptrRight
  | 0x2C#8 => .read
  | 0x2E#8 => .write
  | 0x5B#8 => .loopStart
  | 0x5D#8 => .loopEnd
  | _ => .nop

/-- The byte value of a character, where it has one in 0..255 (R57, R126; D9, D10). DESIGN CHOICE (log 22): the
value is the character's code point, which the spec leaves open for input characters, above 127 above all (N4);
it gives the eight tokens, `A`, `H` and `i` alone (R56, R126, G1, G4). The choice shows only in `textToBytes`: a
token other than the eight is a `NOP` whatever its byte (R57). -/
def charToByte (c : Char) : Option Byte :=
  if c.toNat < 256 then some (BitVec.ofNat 8 c.toNat) else none

/-- `TokenToOpcode` on a character: one that does not fit 8 bits is a `NOP`, like every unrecognised token
(R56, R57; D9). It never gives `HALT`. -/
def tokenToOpcode (c : Char) : Instr :=
  match charToByte c with
  | some b => byteToOpcode b
  | none => .nop

/-- The Program that `loadProgram` stores: one entry a token, in order, and one `HALT` appended (R125). -/
def assemble (tokens : List Char) : List Code :=
  tokens.map (fun t => encode (tokenToOpcode t)) ++ [encode .halt]

/-- The host's decode question: an entry is 4 bits (R51), carried in the low bits of `w`; how entries are packed
into wider words is unspecified (R53), so bits above 3 are no part of it (log 15). -/
def decodeTableWord (nbits w : Nat) : Option Instr :=
  if 4 ≤ nbits ∧ nbits ≤ 8 then some (decodeEntry (BitVec.ofNat 4 w)) else none

end Sys2Proof
end

