-- ==== Sys2Proof/WellFormed.lean ====
section
/-! DEFINITION. Well-formedness. An instruction has no operand (R51, R54), so every term of `Instr` is well
formed and there is nothing to check on one; what can be ill formed is the Program store (R16, R27, R58). -/

namespace Sys2Proof

/-- "Program's last element is always `HALT`" (R16); in particular `L >= 1`. -/
def Program.endsInHalt (p : List Code) : Bool := p.getLast? == some (encode .halt)

/-- `Program[i] != HALT` for every `i < L-1` (R16). -/
def Program.noEarlyHalt (p : List Code) : Bool := p.dropLast.all (fun c => c != encode .halt)

/-- Every entry is one of the ten opcodes: no reserved code 10..15 (R16, R58). -/
def Program.noReserved (p : List Code) : Bool := p.all (fun c => decide (c.toNat < 10))

/-- The invariant of the Program store (R16). -/
def Program.wf (p : List Code) : Bool :=
  Program.endsInHalt p && Program.noEarlyHalt p && Program.noReserved p

end Sys2Proof
end

