-- ==== Sys2Proof/Machine/State.lean ====
section
/-! DEFINITION. The machine's state: the eight elements of R10 and nothing else. `L` is the length of `program`
and is computed from it (`State.progLen`; log 5). -/

namespace Sys2Proof.Machine

/-- The Memory Tape as address and byte pairs: addresses strictly rising and below `CAP`, no entry equal to what
an unlisted cell reads as (log 6). -/
abbrev Memory := List Host.Cell

/-- The architectural state (R10). -/
structure State where
  /-- `tape`, the Memory Tape (R11) -/
  tape : Memory
  /-- `MP`, the MemoryPointer, always in 0..`CAP-1` (R13); the type is the range (log 21) -/
  mp : Fin Config.cap
  /-- `PC`, the ProgramCounter (R14, R15); `PROG_CAP` is unbounded, so no width bounds it (log 3) -/
  pc : Nat
  /-- `LoopStack`, index 0 the bottom, the last element the top (R17) -/
  loopStack : List Nat
  /-- `OutputSequence`, index 0 the oldest byte (R20) -/
  output : List Byte
  /-- `Program`, entry 0 first, as stored 4-bit codes (R16, R53) -/
  program : List Code
  /-- `InputQueue`, index 0 the head (R19) -/
  input : List Byte
deriving DecidableEq, Repr

/-- `L`, the length of the Program, counting the final `HALT` (R16). -/
def State.progLen (s : State) : Nat := s.program.length

/-- `halted`, a derived condition, not stored (R26). -/
def State.halted (s : State) : Bool := decide (s.progLen ≤ s.pc)

/-- The set of synchronous exceptions is empty (R150): no step of this machine ends in a fault, so the type of
faults has no constructor (log 19). -/
inductive Fault
deriving DecidableEq, Repr

/-- Where the model gives no meaning. None is an exception of the hardware (R152). -/
inductive Refusal where
  /-- Raised by `exec`'s arm of an instruction without a meaning; no arm of this model raises it. Safe. -/
  | notModelled (mnemonic : String)
  /-- Raised by `WRITE` when a FINITE `OUT_CAP` is reached (R91, R152; D7); with the unbounded default never.
  Safe. -/
  | outputFull
  /-- Raised by `loadProgram` when the Program does not fit a FINITE `PROG_CAP` (R125, R152; D5); with the
  unbounded default never. Safe. -/
  | programTooLong
  /-- Raised by `loadInput` when the bytes do not fit a FINITE `IN_CAP` (R126, R152; D7); with the unbounded
  default never. Safe. -/
  | inputTooLong
  /-- Raised in front of the input port when a text holds a character with no byte value (R126, D10). Safe. -/
  | inputNotBytes
deriving DecidableEq, Repr

/-- The state at construction, before any command (R176): the reset group at its reset values, `Program` =
`[HALT]` and `InputQueue` empty (DESIGN CHOICE of the spec, D8; log 7). -/
def State.reset : State where
  tape := []
  mp := ⟨0, Config.cap_pos⟩
  pc := 0
  loopStack := []
  output := []
  program := [encode .halt]
  input := []

end Sys2Proof.Machine
end

