-- ==== Sys2Proof/Machine/Ops.lean ====
section
/-! DEFINITION. The named operations every meaning is written over: the tape, the memory primitives, the loop
stack, the byte buffers, the reset operation, the fetch. Taking an exception and returning from one have no
operation: the hardware has neither (R150, R155, R156). -/

namespace Sys2Proof.Machine

/-- What a cell that no entry lists holds: the reset value 0 (R11, R28). -/
def Memory.unlisted : Byte := 0#8

/-- The canonical form from address `lo` up: addresses strictly rising and below `CAP`, no entry 0. -/
def Memory.wfFrom (lo : Nat) : Memory → Bool
  | [] => true
  | (a, v) :: rest =>
    decide (lo ≤ a) && decide (a < Config.cap) && (v != Memory.unlisted) && Memory.wfFrom (a + 1) rest

/-- The canonical form of the tape (log 6). -/
def Memory.wf (m : Memory) : Bool := Memory.wfFrom 0 m

/-- The value of cell `a` of the tape. -/
def Memory.read : Memory → Nat → Byte
  | [], _ => Memory.unlisted
  | (b, v) :: rest, a => if a = b then v else Memory.read rest a

/-- The entries of a tape whose cell `a` is to hold `v`, in front of entries at higher addresses. -/
def Memory.consCell (a : Nat) (v : Byte) (rest : Memory) : Memory :=
  if v = Memory.unlisted then rest else (a, v) :: rest

/-- The tape with cell `a` set to `v`, again in canonical form. -/
def Memory.write : Memory → Nat → Byte → Memory
  | [], a, v => Memory.consCell a v []
  | (b, w) :: rest, a, v =>
    if a < b then Memory.consCell a v ((b, w) :: rest)
    else if a = b then Memory.consCell a v rest
    else (b, w) :: Memory.write rest a v

/-- `MemRead(a, 1)`, for `0 <= a < CAP` (R37): no side effect (R38). -/
def memRead (a : Fin Config.cap) (s : State) : Byte := Memory.read s.tape a.val

/-- `MemWrite(a, 1, v)`, for `0 <= a < CAP` (R37): exactly one cell changes (R38). -/
def memWrite (a : Fin Config.cap) (v : Byte) (s : State) : State :=
  { s with tape := Memory.write s.tape a.val v }

/-- `MP <- p` (R13). -/
def setMp (p : Fin Config.cap) (s : State) : State := { s with mp := p }

/-- `PC <- t` (R14). -/
def setPc (t : Nat) (s : State) : State := { s with pc := t }

/-- `Push(v)`: append `v` as the new top (R17). -/
def push (v : Nat) (s : State) : State := { s with loopStack := s.loopStack ++ [v] }

/-- `Top()`: the top without removing it; `none` when the stack is empty (R17). -/
def top (s : State) : Option Nat := s.loopStack.getLast?

/-- `Pop()`: remove the top (R17). -/
def pop (s : State) : State := { s with loopStack := s.loopStack.dropLast }

/-- `InPop()`: the head of the InputQueue and the state without it; `none` when `InEmpty()` (R19). -/
def inPop (s : State) : Option (Byte × State) :=
  match s.input with
  | [] => none
  | b :: rest => some (b, { s with input := rest })

/-- Whether `n` elements fit a buffer: `none` is an unbounded one (R5). -/
def fits (capacity : Option Nat) (n : Nat) : Bool :=
  match capacity with
  | none => true
  | some c => decide (n ≤ c)

/-- `OutAppend(v)` on a buffer of `outCap` bytes: append one byte (R20); into a full FINITE buffer the spec gives
no meaning and the model refuses (R91, D7). -/
def outAppend (outCap : Option Nat) (v : Byte) (s : State) : Host.Outcome State Fault Refusal :=
  if fits outCap (s.output.length + 1) then .next { s with output := s.output ++ [v] }
  else .refused .outputFull

/-- `Reset()`: the reset group to its initial values, nothing else touched (R170, R172). -/
def resetOp (s : State) : State :=
  { s with pc := 0, mp := ⟨0, Config.cap_pos⟩, tape := [], loopStack := [], output := [] }

/-- `Fetch()`: `none` and no change when `PC >= L` (D4; log 9), else the opcode of `Program[PC]` and the state
with `PC` advanced by 1 (R120). -/
def fetch (s : State) : Option (Instr × State) :=
  match s.program[s.pc]? with
  | none => none
  | some c => some (decodeEntry c, setPc (s.pc + 1) s)

/-- The Program with `c` as the entry at `pc`, every other entry kept. A Program shorter than `pc` is filled with
`NOP` codes; where the new entry would be the last and is no `HALT`, the `HALT` that ends every loaded Program
(R16) is put behind it (log 14). -/
def placeCode (p : List Code) (pc : Nat) (c : Code) : List Code :=
  let before := p.take pc ++ List.replicate (pc - p.length) (encode .nop)
  match p.drop (pc + 1) with
  | [] => if c = encode .halt then before ++ [c] else before ++ [c, encode .halt]
  | after => before ++ c :: after

end Sys2Proof.Machine
end

