-- ==== Sys2Proof/Machine/Operands.lean ====
section
/-! DEFINITION. The one operand form: the current cell, implicit in every instruction that has a data operand
(R37, R54). No instruction has an explicit operand or an immediate. -/

namespace Sys2Proof.Machine

/-- `Cur()`: the value of the cell at `MP` (R37). -/
def cur (s : State) : Byte := memRead s.mp s

/-- `SetCur(v)`: write the cell at `MP` (R37). -/
def setCur (v : Byte) (s : State) : State := memWrite s.mp v s

end Sys2Proof.Machine
end

