-- ==== Sys2Proof/Machine/Flags.lean ====
section
/-! DEFINITION. The hardware has no flag (R23): wraps and clamps are recorded nowhere. The one condition any
instruction tests is computed when `LOOP_END` executes and is not latched. -/

namespace Sys2Proof.Machine

/-- The zero test: `tape[MP] != 0` on the 8-bit unsigned value; 0 alone is zero (R23, R70(d)). -/
def curNonZero (s : State) : Bool := cur s != 0#8

end Sys2Proof.Machine
end

