-- ==== Sys2Proof/Machine/Alu.lean ====
section
/-! DEFINITION. The arithmetic of the machine (R70): cell increment and decrement modulo 256, the pointer law. -/

namespace Sys2Proof.Machine

/-- `(v + 1) mod 256` (R70(a), R72). -/
def cellInc (v : Byte) : Byte := v + 1#8

/-- `(v - 1) mod 256` (R70(a), R73). -/
def cellDec (v : Byte) : Byte := v - 1#8

/-- `Left(p)`, for any capacity: wraps at the left end (R80, R81). -/
def ptrLeftOf {cap : Nat} (p : Fin cap) : Fin cap :=
  if p.val = 0 then ⟨cap - 1, by have := p.isLt; omega⟩ else ⟨p.val - 1, by have := p.isLt; omega⟩

/-- `Right(p)`, for any capacity: clamps at the right end, does NOT wrap (R80, R82; C1). -/
def ptrRightOf {cap : Nat} (p : Fin cap) : Fin cap :=
  if h : p.val = cap - 1 then ⟨cap - 1, by have := p.isLt; omega⟩
  else ⟨p.val + 1, by have := p.isLt; omega⟩

end Sys2Proof.Machine
end

