-- ==== Sys2Proof/Machine/Cell.lean ====
section
/-! DEFINITION. `NOP`, `INC`, `DEC` (40_nop_inc_dec). In every meaning the fetch has already advanced `PC`. -/

namespace Sys2Proof.Machine

/-- `NOP`: no state change by the execute phase (R71). -/
def execNop (s : State) : Host.Outcome State Fault Refusal := .next s

/-- `INC`: current cell <- (value + 1) mod 256 (R72). -/
def execInc (s : State) : Host.Outcome State Fault Refusal := .next (setCur (cellInc (cur s)) s)

/-- `DEC`: current cell <- (value - 1) mod 256 (R73). -/
def execDec (s : State) : Host.Outcome State Fault Refusal := .next (setCur (cellDec (cur s)) s)

end Sys2Proof.Machine
end

