-- ==== Sys2Proof/Machine/Pointer.lean ====
section
/-! DEFINITION. `PTR_LEFT` and `PTR_RIGHT` (41_pointer). -/

namespace Sys2Proof.Machine

/-- `PTR_LEFT`: `MP` one cell to the left, wrapping (R81). -/
def execPtrLeft (s : State) : Host.Outcome State Fault Refusal := .next (setMp (ptrLeftOf s.mp) s)

/-- `PTR_RIGHT`: `MP` one cell to the right, clamping (R82). -/
def execPtrRight (s : State) : Host.Outcome State Fault Refusal := .next (setMp (ptrRightOf s.mp) s)

end Sys2Proof.Machine
end

