-- ==== Sys2Proof/Machine/Io.lean ====
section
/-! DEFINITION. `READ` and `WRITE` (42_io). -/

namespace Sys2Proof.Machine

/-- `READ`: the head of the InputQueue, removed from it, into the current cell; 0 when the queue is empty
(R90; C7). -/
def execRead (s : State) : Host.Outcome State Fault Refusal :=
  match inPop s with
  | none => .next (setCur 0#8 s)
  | some (b, s') => .next (setCur b s')

/-- `WRITE` with an output buffer of `outCap` bytes: append the current cell's value (R91, D7). -/
def writeUnder (outCap : Option Nat) (s : State) : Host.Outcome State Fault Refusal :=
  outAppend outCap (cur s) s

/-- `WRITE` on this configuration, whose output is unbounded (R91; log 2). -/
def execWrite (s : State) : Host.Outcome State Fault Refusal := writeUnder Config.outCap s

end Sys2Proof.Machine
end

