-- ==== Sys2Proof/Machine/Loop.lean ====
section
/-! DEFINITION. `LOOP_START` and `LOOP_END` (43_loop): do-while loops over the loop-return stack (C3). -/

namespace Sys2Proof.Machine

/-- `LOOP_START`: push `PC`, the index of the instruction that follows; no test, no skip (R100). -/
def execLoopStart (s : State) : Host.Outcome State Fault Refusal := .next (push s.pc s)

/-- `LOOP_END` (R101): an empty stack makes it a no-operation (D3; log 8), tested first (R154); else a non-zero
cell branches to the top of the stack, which stays, and a zero cell pops it. -/
def execLoopEnd (s : State) : Host.Outcome State Fault Refusal :=
  match top s with
  | none => .next s
  | some t => if curNonZero s then .next (setPc t s) else .next (pop s)

end Sys2Proof.Machine
end

