-- ==== Sys2Proof/Machine/Halt.lean ====
section
/-! DEFINITION. `HALT` (44_halt). -/

namespace Sys2Proof.Machine

/-- `HALT`: the execute phase changes nothing; the fetch that delivered it left `PC = L` (R115; D13, log 18). -/
def execHalt (s : State) : Host.Outcome State Fault Refusal := .next s

end Sys2Proof.Machine
end

