-- ==== Sys2Proof/Machine/Dispatch.lean ====
section
/-! DEFINITION. Execute(op): one arm per opcode (R122). -/

namespace Sys2Proof.Machine

-- The fetch has already advanced PC (R122).
def exec (i : Instr) (s : State) : Host.Outcome State Fault Refusal :=
  match i with
  | .nop => Sys2Proof.Machine.execNop s
  | .inc => Sys2Proof.Machine.execInc s
  | .dec => Sys2Proof.Machine.execDec s
  | .ptrLeft => Sys2Proof.Machine.execPtrLeft s
  | .ptrRight => Sys2Proof.Machine.execPtrRight s
  | .read => Sys2Proof.Machine.execRead s
  | .write => Sys2Proof.Machine.execWrite s
  | .loopStart => Sys2Proof.Machine.execLoopStart s
  | .loopEnd => Sys2Proof.Machine.execLoopEnd s
  | .halt => Sys2Proof.Machine.execHalt s

end Sys2Proof.Machine
end

