-- ==== Sys2Proof/Machine/Step.lean ====
section
/-! DEFINITION. One step of the engine (R121), and where a test word is placed. -/

namespace Sys2Proof.Machine

/-- `step()`: fetch one instruction; when there is none, do nothing; otherwise execute it (R121). -/
def step (s : State) : Host.Outcome State Fault Refusal :=
  match fetch s with
  | none => .next s
  | some (i, s') => exec i s'

/-- The state with the entry of `w` stored where `step` fetches next, standing for the load that brings a program
in from outside (log 14, log 15). -/
def State.withFetchWord (s : State) (_nbits w : Nat) : State :=
  { s with program := placeCode s.program s.pc (BitVec.ofNat 4 w) }

end Sys2Proof.Machine
end

