-- ==== Sys2Proof/Machine/Engine.lean ====
section
/-! DEFINITION. The host interface (50_engine_control): five commands, one query. A command is one atomic
transition (R128); the host has no move while one is in progress (R129; log 16). -/

namespace Sys2Proof.Machine

/-- What a caller may issue (R128). -/
inductive Command where
  /-- `loadProgram(tokens)`: the characters of the program (R125) -/
  | loadProgram (tokens : List Char)
  /-- `loadInput(bytes)`: the port takes bytes (R126) -/
  | loadInput (bytes : List Byte)
  /-- `reset()` (R127) -/
  | reset
  /-- `step()` (R121) -/
  | step
  /-- `run()` (R123) -/
  | run
deriving DecidableEq, Repr

/-- What a command comes to. -/
inductive Response where
  /-- The command returned control to the caller, in this state. -/
  | returned (s : State)
  /-- A `run()` that has not returned within the fuel given, and the state it has reached (R106, R129; D15). -/
  | unfinished (s : State)
  /-- The model gives the command no meaning (R152); a refused load leaves the state unchanged (D5, D7). -/
  | refused (r : Refusal) (s : State)
deriving DecidableEq, Repr

/-- What the query returns: a read-only snapshot (R131). -/
structure Snapshot where
  pc : Nat
  mp : Fin Config.cap
  tape : List Byte
  output : List Byte
deriving DecidableEq, Repr

/-- The query: `PC`, `MP`, `tape[0..CAP-1]`, `OutputSequence`, and nothing else (R25, R131). -/
def query (s : State) : Snapshot where
  pc := s.pc
  mp := s.mp
  tape := (List.finRange Config.cap).map (fun a => memRead a s)
  output := s.output

/-- `loadProgram(tokens)` with a program store of `progCap` entries (R125; D5, D19). -/
def loadProgramUnder (progCap : Option Nat) (tokens : List Char) (s : State) : Response :=
  if fits progCap (tokens.length + 1) then .returned (resetOp { s with program := assemble tokens })
  else .refused .programTooLong s

/-- `loadInput(bytes)` with an input buffer of `inCap` bytes: the new bytes replace the queue (R126; D7, D12). -/
def loadInputUnder (inCap : Option Nat) (bytes : List Byte) (s : State) : Response :=
  if fits inCap bytes.length then .returned (resetOp { s with input := bytes })
  else .refused .inputTooLong s

/-- The bytes of a text, in order; `none` when a character has no byte value (R126, D10). Which byte a character
has is the model's choice, its code point (DESIGN CHOICE, log 22). -/
def textToBytes : List Char → Option (List Byte)
  | [] => some []
  | c :: rest =>
    match charToByte c, textToBytes rest with
    | some b, some bs => some (b :: bs)
    | _, _ => none

/-- `loadInput(text)`: the conversion of characters to bytes stands in front of the port; a text with a character
that has no byte value cannot be presented (R126, D10; log 12). -/
def loadText (text : List Char) (s : State) : Response :=
  match textToBytes text with
  | some bytes => loadInputUnder Config.inCap bytes s
  | none => .refused .inputNotBytes s

/-- The loop of `run()`, for at most `fuel` fetches: it returns on an empty fetch and on `HALT` (R123; C4). -/
def runLoop : Nat → State → Response
  | 0, s => .unfinished s
  | fuel + 1, s =>
    match fetch s with
    | none => .returned s
    | some (i, s') =>
      match exec i s' with
      | .next t => if i = .halt then .returned t else runLoop fuel t
      | .fault f => nomatch f
      | .refused r => .refused r s

/-- `run()`: reset, then the loop (R123). -/
def run (fuel : Nat) (s : State) : Response := runLoop fuel (resetOp s)

/-- A command on a state. `fuel` is the executor's own bound on `run()`, no state of the machine (D15; log 10). -/
def issue (fuel : Nat) (c : Command) (s : State) : Response :=
  match c with
  | .loadProgram tokens => loadProgramUnder Config.progCap tokens s
  | .loadInput bytes => loadInputUnder Config.inCap bytes s
  | .reset => .returned (resetOp s)
  | .step =>
    match Sys2Proof.Machine.step s with
    | .next t => .returned t
    | .fault f => nomatch f
    | .refused r => .refused r s
  | .run => run fuel s

end Sys2Proof.Machine
end

