-- ==== Sys2Proof/Safety.lean ====
section
/-! DEFINITION. The terms claims are made in: the global invariant, repeated execution, the counts of pushes and
pops. -/

namespace Sys2Proof.Machine

/-- The invariant of every instruction boundary (R27, with the LoopStack's R18). That `MP` is in 0..`CAP-1` and a
cell, an input byte and an output byte in 0..255 is in their types. -/
structure GlobalInv (s : State) : Prop where
  /-- the tape is in canonical form: the model's own part of the invariant (log 6) -/
  tape : Memory.wf s.tape = true
  /-- `L >= 1`, `Program[L-1] = HALT`, no other `HALT`, no reserved code (R16, R58) -/
  program : Program.wf s.program = true
  /-- `PC <= L` (R15) -/
  pc_le : s.pc ≤ s.progLen
  /-- every entry is one past a `LOOP_START`, hence `1 <= e` (R18(a)) -/
  entry_start : ∀ e ∈ s.loopStack, 1 ≤ e ∧ s.program[e - 1]? = some (encode .loopStart)
  /-- every entry is at most `L-1` (R18(a)) -/
  entry_lt : ∀ e ∈ s.loopStack, e < s.progLen
  /-- no entry is above `PC`, in particular not the top (R18(b)) -/
  entry_le_pc : ∀ e ∈ s.loopStack, e ≤ s.pc
  /-- entries strictly increase from bottom to top (R18(c)) -/
  increasing : s.loopStack.Pairwise (· < ·)

/-- `k` steps, stopping at the first that answers no next state: the host's own run of the machine. -/
def stepTimes (k : Nat) (s : State) : Host.Outcome State Fault Refusal := Host.Core.run Sys2Proof.core k s

/-- The opcode the next fetch delivers, if any. -/
def nextInstr (s : State) : Option Instr := (fetch s).map Prod.fst

/-- The execute phase of one instruction, `k` times in a row. -/
def execTimes (i : Instr) : Nat → State → Host.Outcome State Fault Refusal
  | 0, s => .next s
  | k + 1, s =>
    match exec i s with
    | .next t => execTimes i k t
    | .fault f => .fault f
    | .refused r => .refused r

/-- Whether the next step pops the loop stack: a `LOOP_END` with an entry and a zero cell (R101). -/
def popsNext (s : State) : Bool :=
  decide (nextInstr s = some .loopEnd) && !s.loopStack.isEmpty && !curNonZero s

/-- How many of `k` steps execute a `LOOP_START` (R105). -/
def pushesIn : Nat → State → Nat
  | 0, _ => 0
  | k + 1, s =>
    (if nextInstr s = some .loopStart then 1 else 0) +
      match step s with
      | .next t => pushesIn k t
      | _ => 0

/-- How many of `k` steps pop the loop stack (R105). -/
def popsIn : Nat → State → Nat
  | 0, _ => 0
  | k + 1, s =>
    (if popsNext s then 1 else 0) +
      match step s with
      | .next t => popsIn k t
      | _ => 0

/-- The state a command leaves behind, whether it returned, is still running or was refused. -/
def Response.state : Response → State
  | .returned s => s
  | .unfinished s => s
  | .refused _ s => s

end Sys2Proof.Machine
end

