-- ==== Sys2Proof/Certificates/Slice0/Obligations.lean ====
section
/-! DEFINITION. What is to be proved of the model. Cells are read by `memRead`; `{ s with … }` says the frame: every
element of state that it does not name is unchanged. -/

open Sys2Proof Sys2Proof.Machine

/-! ### Encoding and loading -/

/-- The ten words of R52, written out bit by bit, decode to their opcodes (the code numbers are the spec's own
decision D1; log 20). -/
def Obligations.TableWordsDecode : Prop :=
  decode 0b0000#4 = .ok .nop ∧ decode 0b0001#4 = .ok .inc ∧ decode 0b0010#4 = .ok .dec ∧
  decode 0b0011#4 = .ok .ptrLeft ∧ decode 0b0100#4 = .ok .ptrRight ∧ decode 0b0101#4 = .ok .read ∧
  decode 0b0110#4 = .ok .write ∧ decode 0b0111#4 = .ok .loopStart ∧ decode 0b1000#4 = .ok .loopEnd ∧
  decode 0b1001#4 = .ok .halt

/-- Decoder and encoder agree in both directions (30_encoding section 3; codes D1): each word has one meaning and
each opcode one word. -/
def Obligations.DecodeAndEncodeAgree : Prop :=
  ∀ (c : Code) (i : Instr), decode c = .ok i ↔ c = encode i

/-- Codes 10..15 are rejected as reserved and, if present at `PC`, a step executes them as `NOP` and raises nothing
(the spec's own decision D2; log 4). -/
def Obligations.ReservedCodesExecuteAsNop : Prop :=
  ∀ c : Code, 10 ≤ c.toNat →
    decode c = .error (.reserved c) ∧ decodeEntry c = .nop ∧
    ∀ s : State, s.program[s.pc]? = some c → step s = .next { s with pc := s.pc + 1 }

/-- `TokenToOpcode`, character by character and byte by byte (30_encoding section 4; the byte values are ASCII, from
general knowledge, G1, and the 8-bit token port is decision D9; log 11). -/
def Obligations.TokenMapIsTheEightPairs : Prop :=
  (∀ c : Char, tokenToOpcode c =
    if c = '+' then .inc else if c = '-' then .dec else if c = '<' then .ptrLeft else if c = '>' then .ptrRight
    else if c = ',' then .read else if c = '.' then .write else if c = '[' then .loopStart
    else if c = ']' then .loopEnd else .nop) ∧
  (∀ b : Byte, byteToOpcode b =
    if b = 0x2B#8 then .inc else if b = 0x2D#8 then .dec else if b = 0x3C#8 then .ptrLeft
    else if b = 0x3E#8 then .ptrRight else if b = 0x2C#8 then .read else if b = 0x2E#8 then .write
    else if b = 0x5B#8 then .loopStart else if b = 0x5D#8 then .loopEnd else .nop)

/-- R57: an unrecognised token becomes a `NOP` entry, is not dropped and takes one step; no token gives a `HALT`,
and the one `HALT` of a loaded Program is the appended one. -/
def Obligations.UnrecognisedTokensBecomeNopAndNoneHalt : Prop :=
  ∀ tokens : List Char,
    (assemble tokens).length = tokens.length + 1 ∧
    (assemble tokens)[tokens.length]? = some (encode .halt) ∧
    (∀ (k : Nat) (c : Char), tokens[k]? = some c →
      (assemble tokens)[k]? = some (encode (tokenToOpcode c)) ∧
      (assemble tokens)[k]? ≠ some (encode .halt) ∧
      tokenToOpcode c ≠ .halt ∧
      (c ∉ ['+', '-', '<', '>', ',', '.', '[', ']'] →
        (assemble tokens)[k]? = some (encode .nop) ∧
        ∀ s : State, s.program = assemble tokens → s.pc = k → step s = .next { s with pc := k + 1 }))

/-- What the loader stores decodes, entry by entry, to the opcodes of the tokens and a final `HALT`, and satisfies
the Program invariant: in particular no reserved code is ever loaded (from R16, R56, R58, R125). -/
def Obligations.LoadedProgramDecodesAndIsWellFormed : Prop :=
  ∀ tokens : List Char,
    (assemble tokens).map decode = tokens.map (fun t => .ok (tokenToOpcode t)) ++ [.ok .halt] ∧
    Program.wf (assemble tokens) = true

/-! ### The instructions: result, frame, completion

Each begins with the encoding its rule gives the instruction: the code numbers are the spec's own decision D1 (log
20), the byte values of the tokens ASCII by its G1 (log 11). -/

/-- R71: `NOP` completes in every state and changes nothing; its step advances `PC` alone; it is the image of every
token but the eight, and the only opcode that more than one token maps to. -/
def Obligations.NopChangesNothingButPc : Prop :=
  decode 0b0000#4 = .ok .nop ∧
  (∀ c : Char, c ∉ ['+', '-', '<', '>', ',', '.', '[', ']'] → tokenToOpcode c = .nop) ∧
  (∀ c d : Char, tokenToOpcode c = tokenToOpcode d → tokenToOpcode c ≠ .nop → c = d) ∧
  (∀ s : State, exec .nop s = .next s) ∧
  (∀ s : State, s.program[s.pc]? = some 0b0000#4 → step s = .next { s with pc := s.pc + 1 })

/-- R72: `INC` completes in every state whose tape is in canonical form, adds 1 modulo 256 to the current cell, and
changes no other cell and no other element. -/
def Obligations.IncAddsOneModulo256 : Prop :=
  decode 0b0001#4 = .ok .inc ∧ tokenToOpcode '+' = .inc ∧ byteToOpcode 0x2B#8 = .inc ∧
  ∀ s : State, Memory.wf s.tape = true →
    ∃ t, exec .inc s = .next t ∧
      (memRead s.mp t).toNat = ((memRead s.mp s).toNat + 1) % 256 ∧
      (∀ a, a ≠ s.mp → memRead a t = memRead a s) ∧
      t = { s with tape := t.tape }

/-- R73: `DEC` completes in every state whose tape is in canonical form, takes 1 modulo 256 from the current cell,
and changes no other cell and no other element. -/
def Obligations.DecTakesOneModulo256 : Prop :=
  decode 0b0010#4 = .ok .dec ∧ tokenToOpcode '-' = .dec ∧ byteToOpcode 0x2D#8 = .dec ∧
  ∀ s : State, Memory.wf s.tape = true →
    ∃ t, exec .dec s = .next t ∧
      ((memRead s.mp t).toNat : Int) = (((memRead s.mp s).toNat : Int) - 1) % 256 ∧
      (∀ a, a ≠ s.mp → memRead a t = memRead a s) ∧
      t = { s with tape := t.tape }

/-- R81: `PTR_LEFT` completes in every state, moves `MP` one cell left, from 0 to `CAP-1`, and changes nothing else;
`CAP` of them in a row restore `MP`; with a capacity of 1 the result is 0. -/
def Obligations.PtrLeftWraps : Prop :=
  decode 0b0011#4 = .ok .ptrLeft ∧ tokenToOpcode '<' = .ptrLeft ∧ byteToOpcode 0x3C#8 = .ptrLeft ∧
  (∀ s : State, ∃ t, exec .ptrLeft s = .next t ∧
    t.mp.val = (if s.mp.val = 0 then Config.cap - 1 else s.mp.val - 1) ∧
    t = { s with mp := t.mp }) ∧
  (∀ s : State, execTimes .ptrLeft Config.cap s = .next s) ∧
  (∀ p : Fin 1, ptrLeftOf p = 0)

/-- R82: `PTR_RIGHT` completes in every state, moves `MP` one cell right, stays at `CAP-1` there, and changes nothing
else; `k` of them in a row from cell `p` end at the smaller of `p + k` and `CAP-1`; with a capacity of 1 the result
is 0. -/
def Obligations.PtrRightClamps : Prop :=
  decode 0b0100#4 = .ok .ptrRight ∧ tokenToOpcode '>' = .ptrRight ∧ byteToOpcode 0x3E#8 = .ptrRight ∧
  (∀ s : State, ∃ t, exec .ptrRight s = .next t ∧
    t.mp.val = (if s.mp.val = Config.cap - 1 then Config.cap - 1 else s.mp.val + 1) ∧
    t = { s with mp := t.mp }) ∧
  (∀ (s : State) (k : Nat), ∃ t, execTimes .ptrRight k s = .next t ∧
    t.mp.val = min (s.mp.val + k) (Config.cap - 1) ∧ t = { s with mp := t.mp }) ∧
  (∀ p : Fin 1, ptrRightOf p = 0)

/-- R90: `READ` completes in every state whose tape is in canonical form: the head of the queue is removed and put
into the current cell, or 0 when the queue is empty; no other cell and no other element changes. -/
def Obligations.ReadTakesHeadOrZero : Prop :=
  decode 0b0101#4 = .ok .read ∧ tokenToOpcode ',' = .read ∧ byteToOpcode 0x2C#8 = .read ∧
  ∀ s : State, Memory.wf s.tape = true →
    ∃ t, exec .read s = .next t ∧
      memRead s.mp t = s.input.headD 0#8 ∧
      t.input = s.input.tail ∧
      (∀ a, a ≠ s.mp → memRead a t = memRead a s) ∧
      t = { s with tape := t.tape, input := t.input }

/-- `WRITE` completes in every state: it appends the current cell's value to the output and changes nothing else
(42_io section 2; that the output is unbounded is the model's choice, log 2). -/
def Obligations.WriteAppendsCurrentCell : Prop :=
  decode 0b0110#4 = .ok .write ∧ tokenToOpcode '.' = .write ∧ byteToOpcode 0x2E#8 = .write ∧
  ∀ s : State, exec .write s = .next { s with output := s.output ++ [memRead s.mp s] }

/-- With a FINITE output buffer a `WRITE` that finds it full is refused, and one that does not appends (the spec's own
decision D7; log 2). -/
def Obligations.WriteIntoFullFiniteOutputIsRefused : Prop :=
  ∀ (outCap : Nat) (s : State),
    (s.output.length = outCap → writeUnder (some outCap) s = .refused .outputFull) ∧
    (s.output.length < outCap →
      writeUnder (some outCap) s = .next { s with output := s.output ++ [memRead s.mp s] })

/-- R100: `LOOP_START` completes in every state, pushes `PC`, tests nothing and skips nothing; standing at index `i`
its step pushes `i+1`, which is between 1 and `L-1`, and goes on at `i+1`. -/
def Obligations.LoopStartPushesNextIndex : Prop :=
  decode 0b0111#4 = .ok .loopStart ∧ tokenToOpcode '[' = .loopStart ∧ byteToOpcode 0x5B#8 = .loopStart ∧
  (∀ s : State, exec .loopStart s = .next { s with loopStack := s.loopStack ++ [s.pc] }) ∧
  (∀ s : State, s.program[s.pc]? = some 0b0111#4 →
    step s = .next { s with pc := s.pc + 1, loopStack := s.loopStack ++ [s.pc + 1] } ∧
    (Program.wf s.program = true → 1 ≤ s.pc + 1 ∧ s.pc + 1 ≤ s.progLen - 1))

/-- `LOOP_END` completes in every state: an empty stack makes it a no-operation, whatever the cell (the spec's own
decision D3; log 8); else a non-zero cell sets `PC` to the top, which stays, and a zero cell removes the top. -/
def Obligations.LoopEndBranchesPopsOrDoesNothing : Prop :=
  decode 0b1000#4 = .ok .loopEnd ∧ tokenToOpcode ']' = .loopEnd ∧ byteToOpcode 0x5D#8 = .loopEnd ∧
  ∀ s : State,
    (s.loopStack = [] → exec .loopEnd s = .next s) ∧
    (∀ (below : List Nat) (t : Nat), s.loopStack = below ++ [t] →
      (memRead s.mp s ≠ 0#8 → exec .loopEnd s = .next { s with pc := t }) ∧
      (memRead s.mp s = 0#8 → exec .loopEnd s = .next { s with loopStack := below }))

/-- `HALT` completes in every state and its execute phase changes nothing; in a Program that ends in its only `HALT`
the step that fetches it changes `PC` to `L` and nothing else, and every later step changes nothing (44_halt section
1; under `step()` by the spec's own decision D13; log 18). -/
def Obligations.HaltEndsTheRun : Prop :=
  decode 0b1001#4 = .ok .halt ∧
  (∀ s : State, exec .halt s = .next s) ∧
  (∀ s : State, Program.wf s.program = true → s.program[s.pc]? = some 0b1001#4 →
    step s = .next { s with pc := s.progLen } ∧
    ∀ k : Nat, stepTimes (k + 1) s = .next { s with pc := s.progLen })

/-! ### Laws of the ALU -/

/-- `k` `INC`s leave `(v + k) mod 256` and `k` `DEC`s `(v - k) mod 256`, with no other change; 256 of either are the
identity on the whole state (40_nop_inc_dec section 5; C2). -/
def Obligations.RepeatedIncAndDecCountModulo256 : Prop :=
  ∀ s : State, Memory.wf s.tape = true →
    (∀ k : Nat, ∃ t, execTimes .inc k s = .next t ∧
      (memRead s.mp t).toNat = ((memRead s.mp s).toNat + k) % 256 ∧
      (∀ a, a ≠ s.mp → memRead a t = memRead a s) ∧ t = { s with tape := t.tape }) ∧
    (∀ k : Nat, ∃ t, execTimes .dec k s = .next t ∧
      ((memRead s.mp t).toNat : Int) = (((memRead s.mp s).toNat : Int) - k) % 256 ∧
      (∀ a, a ≠ s.mp → memRead a t = memRead a s) ∧ t = { s with tape := t.tape }) ∧
    execTimes .inc 256 s = .next s ∧ execTimes .dec 256 s = .next s

/-- `DEC` after `INC` and `INC` after `DEC` give back the very state (40_nop_inc_dec section 5). -/
def Obligations.IncAndDecAreInverse : Prop :=
  ∀ s : State, Memory.wf s.tape = true →
    (∃ t, exec .inc s = .next t ∧ exec .dec t = .next s) ∧
    (∃ t, exec .dec s = .next t ∧ exec .inc t = .next s)

/-- R80, for every capacity of at least 2, and for the machine's own pointer: `Left` wraps and is a bijection;
`Right` clamps, has no inverse, and undoes `Left`, or is undone by it, everywhere but at one end. -/
def Obligations.PointerLawIsAsymmetric : Prop :=
  (∀ (cap : Nat), 2 ≤ cap → ∀ p : Fin cap,
    (ptrLeftOf p).val = (if p.val = 0 then cap - 1 else p.val - 1) ∧
    (ptrRightOf p).val = (if p.val = cap - 1 then cap - 1 else p.val + 1) ∧
    (ptrLeftOf (ptrRightOf p) = p ↔ p.val ≠ cap - 1) ∧
    (p.val = cap - 1 → (ptrLeftOf (ptrRightOf p)).val = cap - 2) ∧
    (ptrRightOf (ptrLeftOf p) = p ↔ p.val ≠ 0) ∧
    (p.val = 0 → (ptrRightOf (ptrLeftOf p)).val = cap - 1)) ∧
  (∀ (cap : Nat), Function.Bijective (ptrLeftOf : Fin cap → Fin cap)) ∧
  (∀ (cap : Nat), 2 ≤ cap → ∀ p q : Fin cap,
    (p.val = cap - 2 ∧ q.val = cap - 1 → ptrRightOf p = ptrRightOf q) ∧
    ¬ Function.Injective (ptrRightOf : Fin cap → Fin cap)) ∧
  (∀ s : State, exec .ptrLeft s = .next { s with mp := ptrLeftOf s.mp } ∧
    exec .ptrRight s = .next { s with mp := ptrRightOf s.mp })

/-! ### Fetch and step -/

/-- When the entry at `PC` decodes to `i`, a step is `exec` of `i` on the state with `PC` advanced by 1, and nothing
else is done around it (50_engine_control section 1). -/
def Obligations.StepRunsTheDecodedEntry : Prop :=
  ∀ (s : State) (c : Code) (i : Instr), s.program[s.pc]? = some c → decode c = .ok i →
    step s = exec i { s with pc := s.pc + 1 }

/-- A step at or past the end of the Program changes nothing, however often it is taken (that `PC` stays is the
spec's own decision D4; log 9). -/
def Obligations.StepWhenHaltedChangesNothing : Prop :=
  ∀ s : State, s.progLen ≤ s.pc →
    step s = .next s ∧ ∀ k : Nat, stepTimes k s = .next s

/-- No instruction and no step ends in a fault, or in anything but a next state, from any state (60_exceptions
section 1; that `WRITE` never meets a full buffer is the model's choice, log 2). -/
def Obligations.NoInstructionEverStops : Prop :=
  (∀ (i : Instr) (s : State), ∃ t, exec i s = .next t) ∧
  (∀ s : State, ∃ t, step s = .next t) ∧
  (∀ (k : Nat) (s : State), ∃ t, stepTimes k s = .next t) ∧
  (Fault → False)

/-! ### Whole-machine rules -/

/-- A step changes at most the cell at `MP`, and that only when it executes `INC`, `DEC` or `READ` (10_state section
2; 20_memory section 2). -/
def Obligations.StepWritesOnlyTheCurrentCell : Prop :=
  ∀ s t : State, Memory.wf s.tape = true → step s = .next t →
    (∀ a, a ≠ s.mp → memRead a t = memRead a s) ∧
    (nextInstr s ≠ some .inc → nextInstr s ≠ some .dec → nextInstr s ≠ some .read → t.tape = s.tape)

/-- `MP` is written only by `PTR_LEFT` and `PTR_RIGHT`, the loop stack only by `LOOP_START` and `LOOP_END`, the
Program by no step; `PC` advances by 1 except where `LOOP_END` sets it to the top of the stack (10_state sections 3
to 5). -/
def Obligations.StepWritesEachRegisterOnlyWhereAllowed : Prop :=
  ∀ s t : State, step s = .next t →
    t.program = s.program ∧
    (nextInstr s ≠ some .ptrLeft → nextInstr s ≠ some .ptrRight → t.mp = s.mp) ∧
    (nextInstr s ≠ some .loopStart → nextInstr s ≠ some .loopEnd → t.loopStack = s.loopStack) ∧
    (s.pc < s.progLen → t.pc = s.pc + 1 ∨
      (nextInstr s = some .loopEnd ∧ memRead s.mp s ≠ 0#8 ∧ s.loopStack.getLast? = some t.pc ∧
        t.loopStack = s.loopStack))

/-- The streams only move forward. A step takes a byte from the queue only by `READ`, which puts the head into the
current cell, and extends the output only by `WRITE`, by the current cell; so over any number of steps the remaining
input is a suffix of what it was and the output before is an initial part of what it becomes (10_state section 6). -/
def Obligations.StreamsOnlyMoveForward : Prop :=
  (∀ s t : State, step s = .next t →
    (nextInstr s ≠ some .read → t.input = s.input) ∧
    (nextInstr s = some .read → t.input = s.input.tail) ∧
    (nextInstr s ≠ some .write → t.output = s.output) ∧
    (nextInstr s = some .write → t.output = s.output ++ [memRead s.mp s])) ∧
  (∀ (k : Nat) (s t : State), stepTimes k s = .next t →
    (∃ taken, s.input = taken ++ t.input) ∧ (∃ written, t.output = s.output ++ written))

/-! ### Invariants -/

/-- The global invariant holds at power-on (10_state section 9; `Program` and `InputQueue` there are the spec's own
decision D8; log 7). -/
def Obligations.InvariantAtPowerOn : Prop := GlobalInv State.reset

/-- Every step keeps the global invariant: the tape's canonical form (the model's own, log 6), the Program's form,
`PC <= L`, and the loop stack's four laws of 10_state section 5. -/
def Obligations.EveryStepKeepsTheInvariant : Prop :=
  ∀ s t : State, GlobalInv s → step s = .next t → GlobalInv t

/-- Every command keeps the global invariant, whatever its argument and however far a `run` gets (10_state section
9). -/
def Obligations.EveryCommandKeepsTheInvariant : Prop :=
  ∀ (fuel : Nat) (c : Command) (s : State), GlobalInv s → GlobalInv (issue fuel c s).state

/-- The loop stack never holds more entries than the Program holds `LOOP_START`s, which are at most `L-1`, so a stack
of `PROG_CAP-1` entries cannot overflow (10_state section 5, its derived (d); D6). -/
def Obligations.LoopStackIsBoundedByLoopStarts : Prop :=
  ∀ s : State, GlobalInv s →
    s.loopStack.length ≤ s.program.count (encode .loopStart) ∧
    s.program.count (encode .loopStart) ≤ s.progLen - 1

/-- Over any number of steps the loop stack's depth is what it was, plus the `LOOP_START`s executed, less the pops
(43_loop section 3, nesting). -/
def Obligations.LoopStackDepthCountsPushesAndPops : Prop :=
  ∀ (k : Nat) (s t : State), stepTimes k s = .next t →
    t.loopStack.length + popsIn k s = s.loopStack.length + pushesIn k s

/-- A machine that has not halted halts in a step exactly when that step fetches the final `HALT`; and `halted` means
`PC = L` (10_state section 9). -/
def Obligations.HaltedExactlyAfterFetchingHalt : Prop :=
  ∀ s t : State, GlobalInv s → step s = .next t →
    (s.halted = true ↔ s.pc = s.progLen) ∧
    (s.halted = false → (t.halted = true ↔ nextInstr s = some .halt))

/-- A taken `LOOP_END` goes backwards or to itself, to an entry that follows a `LOOP_START`, never out of the Program
(43_loop section 2, target). -/
def Obligations.TakenBranchGoesBackwards : Prop :=
  ∀ s t : State, GlobalInv s → step s = .next t → nextInstr s = some .loopEnd → s.loopStack ≠ [] →
    memRead s.mp s ≠ 0#8 →
    1 ≤ t.pc ∧ t.pc ≤ s.pc ∧ t.pc ≤ s.progLen - 1 ∧ s.program[t.pc - 1]? = some (encode .loopStart)

/-! ### Loops -/

/-- The do-while law for a body of a fixed number of steps (43_loop section 3; bodies whose number of steps varies and
bodies that add 1 are left out here). In any Program with a `LOOP_START` at `i` and a `LOOP_END` at `e`, whose
body takes `b` steps from `i+1` to `e`, keeps `MP`, the stack and the Program, and takes 1 from the test cell: from
any state at `i` the body is executed `n` times, where `n` is the cell's value, or 256 when the cell is 0, so that
after `1 + n * (b + 1)` steps execution is just past the `LOOP_END`, with the cell 0 and the stack as before. -/
def Obligations.DoWhileLoopRunsBodyNTimes : Prop :=
  ∀ (p : List Code) (i e b : Nat) (m : Fin Config.cap) (below : List Nat),
    p[i]? = some (encode .loopStart) → p[e]? = some (encode .loopEnd) →
    (∀ t : State, t.program = p → t.pc = i + 1 → t.mp = m → t.loopStack = below ++ [i + 1] →
      Memory.wf t.tape = true →
      ∃ u, stepTimes b t = .next u ∧ u.program = p ∧ u.pc = e ∧ u.mp = m ∧
        u.loopStack = below ++ [i + 1] ∧ Memory.wf u.tape = true ∧ memRead m u = memRead m t - 1#8) →
    ∀ s : State, s.program = p → s.pc = i → s.mp = m → s.loopStack = below → Memory.wf s.tape = true →
      ∃ t, stepTimes
          (1 + (if memRead m s = 0#8 then 256 else (memRead m s).toNat) * (b + 1)) s = .next t ∧
        t.program = p ∧ t.pc = e + 1 ∧ t.mp = m ∧ t.loopStack = below ∧ memRead m t = 0#8

/-- One round of a loop (43_loop section 3, its do-while rule). From a `LOOP_START` in any state, whatever the cell
holds, the body runs first: if `b` steps then lead to a `LOOP_END` with the stack as pushed, the test follows, and
execution is back at the body with the entry kept, or past the `LOOP_END` with the stack as before. -/
def Obligations.LoopBodyRunsBeforeTheFirstTest : Prop :=
  ∀ (s u : State) (b : Nat), s.program[s.pc]? = some (encode .loopStart) →
    stepTimes b { s with pc := s.pc + 1, loopStack := s.loopStack ++ [s.pc + 1] } = .next u →
    u.program[u.pc]? = some (encode .loopEnd) → u.loopStack = s.loopStack ++ [s.pc + 1] →
    (memRead u.mp u ≠ 0#8 → stepTimes (1 + b + 1) s = .next { u with pc := s.pc + 1 }) ∧
    (memRead u.mp u = 0#8 →
      stepTimes (1 + b + 1) s = .next { u with pc := u.pc + 1, loopStack := s.loopStack })

/-- A `LOOP_END` whose stack top is its own index, with a non-zero cell, is a fixed point: every number of steps
leaves the state as it is (43_loop section 2, corner case (e)), so a `run` that reaches it has not returned after any
fuel. -/
def Obligations.EmptyLoopOnNonZeroCellNeverEnds : Prop :=
  ∀ (s : State) (below : List Nat), s.program[s.pc]? = some (encode .loopEnd) →
    s.loopStack = below ++ [s.pc] → memRead s.mp s ≠ 0#8 →
    (∀ k : Nat, stepTimes k s = .next s) ∧
    (∀ fuel : Nat, runLoop fuel s = .unfinished s)

/-! ### Reset, loads, run, query -/

/-- The power-on state (70_reset section 2; `Program` and `InputQueue` are the spec's own decision D8; log 7), and
that a step or a run from it only fetches the `HALT`. -/
def Obligations.PowerOnState : Prop :=
  State.reset.pc = 0 ∧ State.reset.mp.val = 0 ∧ (∀ a, memRead a State.reset = 0#8) ∧
  State.reset.loopStack = [] ∧ State.reset.output = [] ∧ State.reset.input = [] ∧
  State.reset.program = [0b1001#4] ∧ State.reset.progLen = 1 ∧
  step State.reset = .next { State.reset with pc := 1 } ∧
  ∀ fuel : Nat, issue (fuel + 1) .run State.reset = .returned { State.reset with pc := 1 }

/-- R170: `Reset()` writes the reset group and touches nothing else, from any state; as a command it always
returns. -/
def Obligations.ResetWritesResetGroupOnly : Prop :=
  ∀ (fuel : Nat) (s : State), ∃ t, issue fuel .reset s = .returned t ∧
    t.pc = 0 ∧ t.mp.val = 0 ∧ (∀ a, memRead a t = 0#8) ∧ t.loopStack = [] ∧ t.output = [] ∧
    t.program = s.program ∧ t.input = s.input

/-- `Reset()` is idempotent, and its result depends on `Program` and `InputQueue` alone (70_reset section 1). -/
def Obligations.ResetIsIdempotent : Prop :=
  (∀ s : State, resetOp (resetOp s) = resetOp s) ∧
  (∀ s s' : State, s.program = s'.program → s.input = s'.input → resetOp s = resetOp s')

/-- `loadProgram` and `loadInput` always return, with what they load in place of the old and the reset group at its
reset values; the launch state does not depend on their order (50_engine_control section 2; that the input is
replaced is the spec's own decision D12, log 13; sizes unbounded, log 2). -/
def Obligations.LoadsReplaceAndReset : Prop :=
  ∀ (fuel : Nat) (tokens : List Char) (bytes : List Byte) (s : State),
    issue fuel (.loadProgram tokens) s = .returned
      { tape := [], mp := ⟨0, Config.cap_pos⟩, pc := 0, loopStack := [], output := [],
        program := tokens.map (fun t => encode (tokenToOpcode t)) ++ [encode .halt], input := s.input } ∧
    issue fuel (.loadInput bytes) s = .returned
      { tape := [], mp := ⟨0, Config.cap_pos⟩, pc := 0, loopStack := [], output := [],
        program := s.program, input := bytes } ∧
    issue fuel (.loadProgram tokens) (issue fuel (.loadInput bytes) s).state =
      issue fuel (.loadInput bytes) (issue fuel (.loadProgram tokens) s).state

/-- With finite sizes, a load that does not fit is refused with the state unchanged, and one that fits is the
unbounded one (the spec's own decisions D5 and D7; log 2). -/
def Obligations.OversizeLoadsAreRefused : Prop :=
  ∀ (limit : Nat) (tokens : List Char) (bytes : List Byte) (s : State),
    (limit < tokens.length + 1 → loadProgramUnder (some limit) tokens s = .refused .programTooLong s) ∧
    (tokens.length + 1 ≤ limit →
      loadProgramUnder (some limit) tokens s = loadProgramUnder none tokens s) ∧
    (limit < bytes.length → loadInputUnder (some limit) bytes s = .refused .inputTooLong s) ∧
    (bytes.length ≤ limit → loadInputUnder (some limit) bytes s = loadInputUnder none bytes s)

/-- The conversion in front of the input port keeps order and values, and a text with a character above 255 cannot
be presented (50_engine_control section 2; the spec's own decision D10; log 12). That a character's byte is its code
point is the model's choice: the spec assumes no encoding for characters above 127 (N4; log 22). -/
def Obligations.InputTextConvertsByteByByte : Prop :=
  (∀ (text : List Char) (bytes : List Byte),
    textToBytes text = some bytes ↔ text.map Char.toNat = bytes.map BitVec.toNat) ∧
  (∀ (text : List Char) (s : State), (∃ c ∈ text, 255 < c.toNat) →
    loadText text s = .refused .inputNotBytes s)

/-- R22: what a command returns with. A load rewrites one load-group element and the whole reset group; any other
command leaves `Program` as it was and of `InputQueue` a suffix, from which only a step that executes `READ` takes. -/
def Obligations.LoadGroupIsWrittenOnlyByLoads : Prop :=
  ∀ (fuel : Nat) (c : Command) (s t : State), issue fuel c s = .returned t →
    (∀ tokens, c = .loadProgram tokens →
      t = resetOp { s with program := assemble tokens }) ∧
    (∀ bytes, c = .loadInput bytes → t = resetOp { s with input := bytes }) ∧
    ((∀ tokens, c ≠ .loadProgram tokens) → (∀ bytes, c ≠ .loadInput bytes) →
      t.program = s.program ∧ ∃ taken, s.input = taken ++ t.input) ∧
    (c = .reset → t = resetOp s) ∧
    (c = .step → nextInstr s ≠ some .read → t.input = s.input)

/-- `run()` is `Reset()` followed by steps until the first state that is halted (50_engine_control section 1): within
a fuel it returns a state exactly when that many steps, or fewer, lead to it and no earlier state is halted. The fuel is
the executor's own argument, no state of the machine (D15; log 10). -/
def Obligations.RunIsResetThenStepsUntilHalted : Prop :=
  ∀ (fuel : Nat) (s t : State), Program.wf s.program = true →
    (run fuel s = .returned t ↔
      ∃ k, k ≤ fuel ∧ stepTimes k (resetOp s) = .next t ∧ t.halted = true ∧
        ∀ j, j < k → ∀ u, stepTimes j (resetOp s) = .next u → u.halted = false)

/-- The end of a run is a halted state of the same Program with `PC = L` (50_engine_control section 1), whatever the
state before; more fuel than a run needs changes nothing (D15; log 10). -/
def Obligations.RunEndsHaltedWhateverTheFuel : Prop :=
  ∀ (fuel : Nat) (s t : State), Program.wf s.program = true → run fuel s = .returned t →
    t.pc = t.progLen ∧ t.halted = true ∧ t.program = s.program ∧ GlobalInv t ∧
    ∀ more : Nat, fuel ≤ more → run more s = .returned t

/-- The end state of a run is a function of `Program` and of `InputQueue` at its start alone (50_engine_control
section 1): two states that differ in anything else run alike. -/
def Obligations.RunDependsOnlyOnProgramAndInput : Prop :=
  ∀ (fuel : Nat) (s s' : State), s.program = s'.program → s.input = s'.input →
    issue fuel .run s = issue fuel .run s'

/-- The query gives `PC`, `MP`, every cell in order and the whole output, and depends on nothing else
(50_engine_control section 3). -/
def Obligations.QueryShowsTheFourExposedElements : Prop :=
  (∀ s : State, (query s).pc = s.pc ∧ (query s).mp = s.mp ∧ (query s).output = s.output ∧
    (query s).tape.length = Config.cap ∧
    ∀ a : Fin Config.cap, (query s).tape[a.val]? = some (memRead a s)) ∧
  (∀ s s' : State, s.pc = s'.pc → s.mp = s'.mp → s.tape = s'.tape → s.output = s'.output →
    query s = query s')
end

