-- ==== Sys2Proof/Laws/State.lean ====
section
/-! SUPPORT. One lemma per field per update of the state, so that no proof unfolds a record update. -/

namespace Sys2Proof.Machine

@[simp] theorem setPc_pc (n : Nat) (s : State) : (setPc n s).pc = n := rfl
@[simp] theorem setPc_mp (n : Nat) (s : State) : (setPc n s).mp = s.mp := rfl
@[simp] theorem setPc_tape (n : Nat) (s : State) : (setPc n s).tape = s.tape := rfl
@[simp] theorem setPc_loopStack (n : Nat) (s : State) : (setPc n s).loopStack = s.loopStack := rfl
@[simp] theorem setPc_output (n : Nat) (s : State) : (setPc n s).output = s.output := rfl
@[simp] theorem setPc_program (n : Nat) (s : State) : (setPc n s).program = s.program := rfl
@[simp] theorem setPc_input (n : Nat) (s : State) : (setPc n s).input = s.input := rfl

@[simp] theorem setMp_mp (p : Fin Config.cap) (s : State) : (setMp p s).mp = p := rfl
@[simp] theorem setMp_pc (p : Fin Config.cap) (s : State) : (setMp p s).pc = s.pc := rfl
@[simp] theorem setMp_tape (p : Fin Config.cap) (s : State) : (setMp p s).tape = s.tape := rfl
@[simp] theorem setMp_loopStack (p : Fin Config.cap) (s : State) : (setMp p s).loopStack = s.loopStack := rfl
@[simp] theorem setMp_output (p : Fin Config.cap) (s : State) : (setMp p s).output = s.output := rfl
@[simp] theorem setMp_program (p : Fin Config.cap) (s : State) : (setMp p s).program = s.program := rfl
@[simp] theorem setMp_input (p : Fin Config.cap) (s : State) : (setMp p s).input = s.input := rfl

@[simp] theorem push_loopStack (v : Nat) (s : State) : (push v s).loopStack = s.loopStack ++ [v] := rfl
@[simp] theorem push_pc (v : Nat) (s : State) : (push v s).pc = s.pc := rfl
@[simp] theorem push_mp (v : Nat) (s : State) : (push v s).mp = s.mp := rfl
@[simp] theorem push_tape (v : Nat) (s : State) : (push v s).tape = s.tape := rfl
@[simp] theorem push_output (v : Nat) (s : State) : (push v s).output = s.output := rfl
@[simp] theorem push_program (v : Nat) (s : State) : (push v s).program = s.program := rfl
@[simp] theorem push_input (v : Nat) (s : State) : (push v s).input = s.input := rfl

@[simp] theorem pop_loopStack (s : State) : (pop s).loopStack = s.loopStack.dropLast := rfl
@[simp] theorem pop_pc (s : State) : (pop s).pc = s.pc := rfl
@[simp] theorem pop_mp (s : State) : (pop s).mp = s.mp := rfl
@[simp] theorem pop_tape (s : State) : (pop s).tape = s.tape := rfl
@[simp] theorem pop_output (s : State) : (pop s).output = s.output := rfl
@[simp] theorem pop_program (s : State) : (pop s).program = s.program := rfl
@[simp] theorem pop_input (s : State) : (pop s).input = s.input := rfl

@[simp] theorem setCur_tape (v : Byte) (s : State) :
    (setCur v s).tape = Memory.write s.tape s.mp.val v := rfl
@[simp] theorem setCur_pc (v : Byte) (s : State) : (setCur v s).pc = s.pc := rfl
@[simp] theorem setCur_mp (v : Byte) (s : State) : (setCur v s).mp = s.mp := rfl
@[simp] theorem setCur_loopStack (v : Byte) (s : State) : (setCur v s).loopStack = s.loopStack := rfl
@[simp] theorem setCur_output (v : Byte) (s : State) : (setCur v s).output = s.output := rfl
@[simp] theorem setCur_program (v : Byte) (s : State) : (setCur v s).program = s.program := rfl
@[simp] theorem setCur_input (v : Byte) (s : State) : (setCur v s).input = s.input := rfl

@[simp] theorem resetOp_pc (s : State) : (resetOp s).pc = 0 := rfl
@[simp] theorem resetOp_mp_val (s : State) : (resetOp s).mp.val = 0 := rfl
@[simp] theorem resetOp_tape (s : State) : (resetOp s).tape = [] := rfl
@[simp] theorem resetOp_loopStack (s : State) : (resetOp s).loopStack = [] := rfl
@[simp] theorem resetOp_output (s : State) : (resetOp s).output = [] := rfl
@[simp] theorem resetOp_program (s : State) : (resetOp s).program = s.program := rfl
@[simp] theorem resetOp_input (s : State) : (resetOp s).input = s.input := rfl

@[simp] theorem cur_setPc (n : Nat) (s : State) : cur (setPc n s) = cur s := rfl
@[simp] theorem cur_push (v : Nat) (s : State) : cur (push v s) = cur s := rfl
@[simp] theorem cur_pop (s : State) : cur (pop s) = cur s := rfl

end Sys2Proof.Machine
end

