-- ==== Sys2Proof/Laws/Memory.lean ====
section
/-! SUPPORT. The laws of the tape: read after write, the canonical form, equal cells give equal tapes. -/

namespace Sys2Proof.Machine

/-- The canonical form, cell by cell. -/
theorem Memory.wfFrom_cons {lo a : Nat} {v : Byte} {rest : Memory} :
    Memory.wfFrom lo ((a, v) :: rest) = true ↔
      lo ≤ a ∧ a < Config.cap ∧ v ≠ Memory.unlisted ∧ Memory.wfFrom (a + 1) rest = true := by
  simp [Memory.wfFrom, and_assoc]

/-- A tape in canonical form from `hi` is so from any lower address. -/
theorem Memory.wfFrom_mono {lo hi : Nat} {m : Memory} (h : lo ≤ hi)
    (hm : Memory.wfFrom hi m = true) : Memory.wfFrom lo m = true := by
  cases m with
  | nil => rfl
  | cons e rest =>
    obtain ⟨h1, h2⟩ := Memory.wfFrom_cons.mp hm
    exact Memory.wfFrom_cons.mpr ⟨by omega, h2⟩

/-- Nothing is listed below where the canonical form starts. -/
theorem Memory.read_below {lo a : Nat} {m : Memory} (hm : Memory.wfFrom lo m = true) (h : a < lo) :
    Memory.read m a = Memory.unlisted := by
  induction m generalizing lo with
  | nil => rfl
  | cons e rest ih =>
    obtain ⟨h1, _, _, h4⟩ := Memory.wfFrom_cons.mp hm
    rw [Memory.read, if_neg (by omega)]
    exact ih h4 (by omega)

/-- `consCell` keeps the canonical form. -/
theorem Memory.consCell_wfFrom {lo a : Nat} {v : Byte} {rest : Memory} (h1 : lo ≤ a)
    (h2 : a < Config.cap) (hr : Memory.wfFrom (a + 1) rest = true) :
    Memory.wfFrom lo (Memory.consCell a v rest) = true := by
  unfold Memory.consCell
  split
  · exact Memory.wfFrom_mono (by omega) hr
  · exact Memory.wfFrom_cons.mpr ⟨h1, h2, ‹_›, hr⟩

/-- Reading `consCell`. -/
theorem Memory.read_consCell {a b : Nat} {v : Byte} {rest : Memory}
    (hr : Memory.wfFrom (a + 1) rest = true) :
    Memory.read (Memory.consCell a v rest) b = if b = a then v else Memory.read rest b := by
  unfold Memory.consCell
  split
  · next hv =>
    split
    · next hb => rw [hv]; exact Memory.read_below hr (by omega)
    · rfl
  · rfl

/-- A write at or above `lo` keeps the canonical form from `lo`. -/
theorem Memory.write_wfFrom {lo a : Nat} {v : Byte} {m : Memory} (hm : Memory.wfFrom lo m = true)
    (h1 : lo ≤ a) (h2 : a < Config.cap) : Memory.wfFrom lo (Memory.write m a v) = true := by
  induction m generalizing lo with
  | nil => exact Memory.consCell_wfFrom h1 h2 rfl
  | cons e rest ih =>
    obtain ⟨b, w⟩ := e
    obtain ⟨g1, g2, g3, g4⟩ := Memory.wfFrom_cons.mp hm
    unfold Memory.write
    split
    · exact Memory.consCell_wfFrom h1 h2 (Memory.wfFrom_cons.mpr ⟨by omega, g2, g3, g4⟩)
    · split
      · next _ hab => subst hab; exact Memory.consCell_wfFrom h1 h2 g4
      · exact Memory.wfFrom_cons.mpr ⟨g1, g2, g3, ih g4 (by omega)⟩

/-- Every memory operation keeps the canonical form. -/
theorem Memory.write_wf {a : Nat} {v : Byte} {m : Memory} (hm : Memory.wf m = true)
    (h : a < Config.cap) : Memory.wf (Memory.write m a v) = true :=
  Memory.write_wfFrom hm (Nat.zero_le _) h

/-- The tape at power-on and after the reset operation is in canonical form. -/
theorem reset_tape_wf (s : State) :
    Memory.wf State.reset.tape = true ∧ Memory.wf (resetOp s).tape = true := ⟨rfl, rfl⟩

/-- What a read after a write gives, from `lo` up. -/
theorem Memory.read_write_from {lo a b : Nat} {v : Byte} {m : Memory}
    (hm : Memory.wfFrom lo m = true) :
    Memory.read (Memory.write m a v) b = if b = a then v else Memory.read m b := by
  induction m generalizing lo with
  | nil => exact Memory.read_consCell rfl
  | cons e rest ih =>
    obtain ⟨c, w⟩ := e
    obtain ⟨g1, g2, g3, g4⟩ := Memory.wfFrom_cons.mp hm
    unfold Memory.write
    split
    · exact Memory.read_consCell (Memory.wfFrom_cons.mpr ⟨by omega, g2, g3, g4⟩)
    · split
      · next _ hab =>
        subst hab
        rw [Memory.read_consCell g4]
        split
        · rfl
        · rw [Memory.read, if_neg ‹_›]
      · rw [Memory.read, Memory.read, ih g4]
        grind

/-- A read after a write: the written value there, the old value elsewhere (R38). -/
theorem Memory.read_write {a b : Nat} {v : Byte} {m : Memory} (hm : Memory.wf m = true) :
    Memory.read (Memory.write m a v) b = if b = a then v else Memory.read m b :=
  Memory.read_write_from hm

/-- Two tapes in canonical form with equal cells are the same data. -/
theorem Memory.ext_from {lo : Nat} {m n : Memory} (hm : Memory.wfFrom lo m = true)
    (hn : Memory.wfFrom lo n = true) (h : ∀ a, Memory.read m a = Memory.read n a) : m = n := by
  induction m generalizing lo n with
  | nil =>
    cases n with
    | nil => rfl
    | cons e rest =>
      obtain ⟨_, _, g3, _⟩ := Memory.wfFrom_cons.mp hn
      have := h e.1
      simp only [Memory.read, if_true] at this
      exact absurd this.symm g3
  | cons e rest ih =>
    obtain ⟨a, v⟩ := e
    obtain ⟨_, _, g3, g4⟩ := Memory.wfFrom_cons.mp hm
    cases n with
    | nil =>
      have := h a
      simp only [Memory.read, if_true] at this
      exact absurd this g3
    | cons e' rest' =>
      obtain ⟨b, w⟩ := e'
      obtain ⟨_, _, k3, k4⟩ := Memory.wfFrom_cons.mp hn
      have hab : a = b := by
        rcases Nat.lt_trichotomy a b with hlt | heq | hlt
        · have := h a
          rw [Memory.read, if_pos rfl, Memory.read, if_neg (by omega),
            Memory.read_below k4 (by omega)] at this
          exact absurd this g3
        · exact heq
        · have := h b
          rw [Memory.read, if_neg (by omega), Memory.read_below g4 (by omega),
            Memory.read, if_pos rfl] at this
          exact absurd this.symm k3
      subst hab
      have hvw : v = w := by simpa [Memory.read] using h a
      subst hvw
      have : rest = rest' := by
        refine ih g4 k4 (fun c => ?_)
        by_cases hc : c = a
        · subst hc
          rw [Memory.read_below g4 (by omega), Memory.read_below k4 (by omega)]
        · simpa [Memory.read, hc] using h c
      rw [this]

/-- Equal cells give equal tapes. -/
theorem Memory.ext {m n : Memory} (hm : Memory.wf m = true) (hn : Memory.wf n = true)
    (h : ∀ a, Memory.read m a = Memory.read n a) : m = n :=
  Memory.ext_from hm hn h

/-- Writing back what a cell holds changes nothing. -/
theorem Memory.write_read_self {a : Nat} {m : Memory} (hm : Memory.wf m = true)
    (h : a < Config.cap) : Memory.write m a (Memory.read m a) = m := by
  refine Memory.ext (Memory.write_wf hm h) hm (fun b => ?_)
  rw [Memory.read_write hm]
  split
  · next hb => rw [hb]
  · rfl

/-- The last of two writes to a cell stands. -/
theorem Memory.write_write {a : Nat} {v w : Byte} {m : Memory} (hm : Memory.wf m = true)
    (h : a < Config.cap) : Memory.write (Memory.write m a v) a w = Memory.write m a w := by
  have hv := Memory.write_wf (v := v) hm h
  refine Memory.ext (Memory.write_wf hv h) (Memory.write_wf hm h) (fun b => ?_)
  rw [Memory.read_write hv, Memory.read_write hm, Memory.read_write hm]
  split <;> rfl

/-- The cells of a state after a write to the current cell (R37, R38). -/
theorem memRead_setCur {a : Fin Config.cap} {v : Byte} {s : State} (hm : Memory.wf s.tape = true) :
    memRead a (setCur v s) = if a = s.mp then v else memRead a s := by
  simp only [memRead, setCur_tape, Memory.read_write hm, Fin.ext_iff]

/-- The current cell after a write to it. -/
theorem cur_setCur {v : Byte} {s : State} (hm : Memory.wf s.tape = true) :
    cur (setCur v s) = v := by
  rw [cur, setCur_mp, memRead_setCur hm, if_pos rfl]

/-- A write to the current cell keeps the tape's canonical form. -/
theorem setCur_wf {v : Byte} {s : State} (hm : Memory.wf s.tape = true) :
    Memory.wf (setCur v s).tape = true :=
  Memory.write_wf hm s.mp.isLt

/-- The last of two writes to the current cell stands. -/
theorem setCur_setCur {v w : Byte} {s : State} (hm : Memory.wf s.tape = true) :
    setCur w (setCur v s) = setCur w s := by
  have := Memory.write_write (v := v) (w := w) hm s.mp.isLt
  simp only [setCur, memWrite, this]

/-- Writing back the current cell changes nothing. -/
theorem setCur_cur {s : State} (hm : Memory.wf s.tape = true) : setCur (cur s) s = s := by
  have := Memory.write_read_self hm s.mp.isLt
  simp only [setCur, memWrite, cur, memRead, this]

end Sys2Proof.Machine
end

