-- ==== Sys2Proof/Laws/Ops.lean ====
section
/-! SUPPORT. One lemma per shared operation and per meaning: what it can answer. -/

namespace Sys2Proof.Machine

/-- The fetch, as the two cases of R120. -/
theorem fetch_eq (s : State) :
    fetch s = (s.program[s.pc]?).map (fun c => (decodeEntry c, setPc (s.pc + 1) s)) := by
  unfold fetch
  cases s.program[s.pc]? <;> rfl

/-- A fetch that delivers an opcode. -/
theorem fetch_of_entry {s : State} {c : Code} (h : s.program[s.pc]? = some c) :
    fetch s = some (decodeEntry c, setPc (s.pc + 1) s) := by
  rw [fetch_eq, h, Option.map_some]

/-- A fetch past the end delivers nothing. -/
theorem fetch_past_end {s : State} (h : s.progLen ≤ s.pc) : fetch s = none := by
  rw [fetch_eq, List.getElem?_eq_none h, Option.map_none]

/-- An empty queue gives no byte. -/
theorem inPop_nil {s : State} (h : s.input = []) : inPop s = none := by
  simp only [inPop, h]

/-- A queue gives its head and keeps the rest. -/
theorem inPop_cons {s : State} {b : Byte} {rest : List Byte} (h : s.input = b :: rest) :
    inPop s = some (b, { s with input := rest }) := by
  simp only [inPop, h]

/-- An empty stack has no top. -/
theorem top_nil {s : State} (h : s.loopStack = []) : top s = none := by
  simp only [top, h, List.getLast?_nil]

/-- The top is the last entry. -/
theorem top_concat {s : State} {st : List Nat} {t : Nat} (h : s.loopStack = st ++ [t]) :
    top s = some t := by
  simp only [top, h, List.getLast?_concat]

/-- A pop removes the last entry. -/
theorem pop_concat {s : State} {st : List Nat} {t : Nat} (h : s.loopStack = st ++ [t]) :
    pop s = { s with loopStack := st } := by
  simp only [pop, h, List.dropLast_concat]

/-- Output into an unbounded buffer. -/
theorem outAppend_unbounded (v : Byte) (s : State) :
    outAppend none v s = .next { s with output := s.output ++ [v] } := rfl

@[simp] theorem exec_nop (s : State) : exec .nop s = .next s := rfl

@[simp] theorem exec_inc (s : State) : exec .inc s = .next (setCur (cellInc (cur s)) s) := rfl

@[simp] theorem exec_dec (s : State) : exec .dec s = .next (setCur (cellDec (cur s)) s) := rfl

@[simp] theorem exec_ptrLeft (s : State) : exec .ptrLeft s = .next (setMp (ptrLeftOf s.mp) s) := rfl

@[simp] theorem exec_ptrRight (s : State) : exec .ptrRight s = .next (setMp (ptrRightOf s.mp) s) := rfl

/-- `READ` on an empty queue. -/
theorem exec_read_nil {s : State} (h : s.input = []) : exec .read s = .next (setCur 0#8 s) := by
  simp only [exec, execRead, inPop_nil h]

/-- `READ` on a queue with a byte. -/
theorem exec_read_cons {s : State} {b : Byte} {rest : List Byte} (h : s.input = b :: rest) :
    exec .read s = .next (setCur b { s with input := rest }) := by
  simp only [exec, execRead, inPop_cons h]

@[simp] theorem exec_write (s : State) :
    exec .write s = .next { s with output := s.output ++ [cur s] } := rfl

@[simp] theorem exec_loopStart (s : State) : exec .loopStart s = .next (push s.pc s) := rfl

/-- `LOOP_END` on an empty stack. -/
theorem exec_loopEnd_nil {s : State} (h : s.loopStack = []) : exec .loopEnd s = .next s := by
  simp only [exec, execLoopEnd, top_nil h]

/-- `LOOP_END` with an entry and a non-zero cell. -/
theorem exec_loopEnd_branch {s : State} {st : List Nat} {t : Nat} (h : s.loopStack = st ++ [t])
    (hc : cur s ≠ 0#8) : exec .loopEnd s = .next (setPc t s) := by
  simp [exec, execLoopEnd, top_concat h, curNonZero, hc]

/-- `LOOP_END` with an entry and a zero cell. -/
theorem exec_loopEnd_pop {s : State} {st : List Nat} {t : Nat} (h : s.loopStack = st ++ [t])
    (hc : cur s = 0#8) : exec .loopEnd s = .next { s with loopStack := st } := by
  simp [exec, execLoopEnd, top_concat h, curNonZero, hc, pop_concat h]

@[simp] theorem exec_halt (s : State) : exec .halt s = .next s := rfl

/-- `READ`, both cases in one: the head or 0 into the current cell, the rest stays. -/
theorem exec_read (s : State) :
    exec .read s = .next (setCur (s.input.headD 0#8) { s with input := s.input.tail }) := by
  cases h : s.input with
  | nil => rw [exec_read_nil h, List.headD_nil, List.tail_nil, ← h]
  | cons b rest => rw [exec_read_cons h, List.headD_cons, List.tail_cons]

/-- Everything an instruction can do: its opcode and the state it answers. -/
theorem exec_next_cases {i : Instr} {s t : State} (h : exec i s = .next t) :
    ((i = .nop ∨ i = .halt) ∧ t = s) ∨
    (i = .inc ∧ t = setCur (cellInc (cur s)) s) ∨
    (i = .dec ∧ t = setCur (cellDec (cur s)) s) ∨
    (i = .ptrLeft ∧ t = setMp (ptrLeftOf s.mp) s) ∨
    (i = .ptrRight ∧ t = setMp (ptrRightOf s.mp) s) ∨
    (i = .read ∧ t = setCur (s.input.headD 0#8) { s with input := s.input.tail }) ∨
    (i = .write ∧ t = { s with output := s.output ++ [cur s] }) ∨
    (i = .loopStart ∧ t = push s.pc s) ∨
    (i = .loopEnd ∧ s.loopStack = [] ∧ t = s) ∨
    (i = .loopEnd ∧ ∃ below e, s.loopStack = below ++ [e] ∧
      ((cur s ≠ 0#8 ∧ t = setPc e s) ∨ (cur s = 0#8 ∧ t = { s with loopStack := below }))) := by
  cases i
  case read =>
    rw [exec_read] at h
    simp [(Host.Outcome.next.inj h).symm]
  case loopEnd =>
    rcases List.eq_nil_or_concat s.loopStack with hn | ⟨below, e, hn⟩
    · rw [exec_loopEnd_nil hn] at h
      simp [hn, (Host.Outcome.next.inj h).symm]
    · rw [List.concat_eq_append] at hn
      by_cases hc : cur s = 0#8
      · rw [exec_loopEnd_pop hn hc] at h
        simp [hn, hc, (Host.Outcome.next.inj h).symm]
      · rw [exec_loopEnd_branch hn hc] at h
        simp [hn, hc, (Host.Outcome.next.inj h).symm]
  all_goals
    simp only [exec_nop, exec_inc, exec_dec, exec_ptrLeft, exec_ptrRight, exec_write, exec_loopStart,
      exec_halt, Host.Outcome.next.injEq] at h
    simp [h.symm]

/-- What a step that finds an entry does. -/
theorem step_of_entry {s : State} {c : Code} (h : s.program[s.pc]? = some c) :
    step s = exec (decodeEntry c) (setPc (s.pc + 1) s) := by
  simp only [step, fetch_of_entry h]

/-- What a step past the end does. -/
theorem step_past_end {s : State} (h : s.progLen ≤ s.pc) : step s = .next s := by
  simp only [step, fetch_past_end h]

/-- A step either finds the machine halted and changes nothing, or executes the entry at `PC`. -/
theorem step_cases (s : State) :
    (s.progLen ≤ s.pc ∧ step s = .next s) ∨
      ∃ c, s.program[s.pc]? = some c ∧ s.pc < s.progLen ∧
        step s = exec (decodeEntry c) (setPc (s.pc + 1) s) := by
  by_cases h : s.progLen ≤ s.pc
  · exact .inl ⟨h, step_past_end h⟩
  · have hlt : s.pc < s.program.length := Nat.lt_of_not_le h
    exact .inr ⟨_, List.getElem?_eq_getElem hlt, hlt, step_of_entry (List.getElem?_eq_getElem hlt)⟩

/-- The code placed at `pc` is the entry at `pc`. -/
theorem placeCode_getElem (p : List Code) (pc : Nat) (c : Code) : (placeCode p pc c)[pc]? = some c := by
  have hlen : (p.take pc ++ List.replicate (pc - p.length) (encode .nop)).length = pc := by
    simp only [List.length_append, List.length_take, List.length_replicate]
    omega
  unfold placeCode
  split
  · split <;> rw [List.getElem?_append_right (by omega), hlen, Nat.sub_self] <;> rfl
  · rw [List.getElem?_append_right (by omega), hlen, Nat.sub_self]
    rfl

/-- A step after `withFetchWord` runs exactly the instruction placed. -/
theorem step_withFetchWord (s : State) (nbits w : Nat) :
    step (s.withFetchWord nbits w) =
      exec (decodeEntry (BitVec.ofNat 4 w)) (setPc (s.pc + 1) (s.withFetchWord nbits w)) :=
  step_of_entry (placeCode_getElem s.program s.pc _)

/-- The opcode of the entry at `PC`. -/
theorem nextInstr_of_entry {s : State} {c : Code} (h : s.program[s.pc]? = some c) :
    nextInstr s = some (decodeEntry c) := by
  rw [nextInstr, fetch_of_entry h, Option.map_some]

/-- `PTR_LEFT`'s law as a number (R81). -/
theorem ptrLeftOf_val {cap : Nat} (p : Fin cap) :
    (ptrLeftOf p).val = if p.val = 0 then cap - 1 else p.val - 1 := by
  unfold ptrLeftOf
  split <;> rfl

/-- `PTR_RIGHT`'s law as a number (R82). -/
theorem ptrRightOf_val {cap : Nat} (p : Fin cap) :
    (ptrRightOf p).val = if p.val = cap - 1 then cap - 1 else p.val + 1 := by
  unfold ptrRightOf
  split <;> rfl

/-- For any machine, `k + 1` steps are a step and `k` steps. -/
theorem run_succ (M : Host.Core) {s t : M.State} {k : Nat} (h : M.step s = .next t) :
    M.run (k + 1) s = M.run k t := by
  rw [Host.Core.run, h]

/-- For any machine, if `k + 1` steps reach a state, the first of them does. -/
theorem run_succ_inv (M : Host.Core) {s t : M.State} {k : Nat} (h : M.run (k + 1) s = .next t) :
    ∃ u, M.step s = .next u ∧ M.run k u = .next t := by
  rw [Host.Core.run] at h
  split at h
  · next u hu => exact ⟨u, hu, h⟩
  · exact nomatch h
  · exact nomatch h

/-- No step. -/
theorem stepTimes_zero (s : State) : stepTimes 0 s = .next s := rfl

/-- `k + 1` steps are a step and `k` steps. -/
theorem stepTimes_succ {s t : State} {k : Nat} (h : step s = .next t) :
    stepTimes (k + 1) s = stepTimes k t :=
  run_succ core h

/-- If `k + 1` steps reach a state, the first of them does. -/
theorem stepTimes_succ_inv {s t : State} {k : Nat} (h : stepTimes (k + 1) s = .next t) :
    ∃ u, step s = .next u ∧ stepTimes k u = .next t :=
  run_succ_inv core h

/-- `j + k` steps are `j` steps and then `k`. -/
theorem stepTimes_add {s t : State} {j k : Nat} (h : stepTimes j s = .next t) :
    stepTimes (j + k) s = stepTimes k t := by
  induction j generalizing s with
  | zero =>
    rw [stepTimes_zero] at h
    rw [Nat.zero_add, Host.Outcome.next.inj h]
  | succ n ih =>
    obtain ⟨u, hs, hu⟩ := stepTimes_succ_inv h
    rw [Nat.add_right_comm, stepTimes_succ hs, ih hu]

end Sys2Proof.Machine
end

