-- ==== Sys2Proof/Laws/PerInstr.lean ====
section
/-! SUPPORT. Statements made per instruction. -/

namespace Sys2Proof.Laws

/-- The family `Encoding`: an instruction's stored code is below the reserved codes and decodes to it, by the
decoder and by the fetch. -/
def Encoding.Statement (i : Instr) : Prop :=
  (encode i).toNat < 10 ∧ decode (encode i) = .ok i ∧ decodeEntry (encode i) = i

theorem Encoding.nop : Encoding.Statement .nop := ⟨by decide, rfl, rfl⟩
theorem Encoding.inc : Encoding.Statement .inc := ⟨by decide, rfl, rfl⟩
theorem Encoding.dec : Encoding.Statement .dec := ⟨by decide, rfl, rfl⟩
theorem Encoding.ptrLeft : Encoding.Statement .ptrLeft := ⟨by decide, rfl, rfl⟩
theorem Encoding.ptrRight : Encoding.Statement .ptrRight := ⟨by decide, rfl, rfl⟩
theorem Encoding.read : Encoding.Statement .read := ⟨by decide, rfl, rfl⟩
theorem Encoding.write : Encoding.Statement .write := ⟨by decide, rfl, rfl⟩
theorem Encoding.loopStart : Encoding.Statement .loopStart := ⟨by decide, rfl, rfl⟩
theorem Encoding.loopEnd : Encoding.Statement .loopEnd := ⟨by decide, rfl, rfl⟩
theorem Encoding.halt : Encoding.Statement .halt := ⟨by decide, rfl, rfl⟩

end Sys2Proof.Laws
end

