-- ==== Sys2Proof/Laws/Program.lean ====
section
/-! SUPPORT. Facts about stored codes and well-formed Programs. -/

namespace Sys2Proof

/-- Two opcodes with one code are one opcode. -/
theorem encode_injective {i j : Instr} (h : encode i = encode j) : i = j := by
  have hi : decodeEntry (encode i) = i := by cases i <;> rfl
  have hj : decodeEntry (encode j) = j := by cases j <;> rfl
  rw [← hi, h, hj]

/-- A code below the reserved ones is the code of the opcode it executes as. -/
theorem code_of_decodeEntry {c : Code} {i : Instr} (hc : c.toNat < 10) (h : decodeEntry c = i) :
    c = encode i := by
  subst h
  revert c
  decide

/-- A well-formed Program ends in `HALT`. -/
theorem Program.getLast_of_wf {p : List Code} (h : Program.wf p = true) :
    p.getLast? = some (encode .halt) := by
  simp only [Program.wf, Program.endsInHalt, Bool.and_eq_true, beq_iff_eq] at h
  exact h.1.1

/-- A well-formed Program has an entry (`L >= 1`). -/
theorem Program.length_pos_of_wf {p : List Code} (h : Program.wf p = true) : 0 < p.length := by
  have hl := Program.getLast_of_wf h
  cases p with
  | nil => simp at hl
  | cons c rest => simp

/-- Every entry of a well-formed Program is below the reserved codes. -/
theorem Program.code_lt_of_wf {p : List Code} (h : Program.wf p = true) {k : Nat} {c : Code}
    (hk : p[k]? = some c) : c.toNat < 10 := by
  simp only [Program.wf, Program.noReserved, Bool.and_eq_true, List.all_eq_true, decide_eq_true_eq] at h
  exact h.2 c (List.mem_of_getElem? hk)

/-- In a well-formed Program `HALT` stands at the last index and nowhere else. -/
theorem Program.halt_iff_last {p : List Code} (h : Program.wf p = true) {k : Nat} (hk : k < p.length) :
    p[k]? = some (encode .halt) ↔ k = p.length - 1 := by
  constructor
  · intro hh
    by_contra hne
    simp only [Program.wf, Program.noEarlyHalt, Bool.and_eq_true, List.all_eq_true, bne_iff_ne] at h
    have hlt : k < p.dropLast.length := by rw [List.length_dropLast]; omega
    refine h.1.2 (p.dropLast[k]) (List.getElem_mem hlt) ?_
    rw [List.getElem_dropLast]
    exact (List.getElem?_eq_some_iff.mp hh).2
  · rintro rfl
    rw [← List.getLast?_eq_getElem?]
    exact Program.getLast_of_wf h

end Sys2Proof
end

