-- ==== Sys2Proof/Laws/Engine.lean ====
section
/-! SUPPORT. The loop of `run`, one turn at a time. -/

namespace Sys2Proof.Machine

/-- Without fuel nothing has returned. -/
theorem runLoop_zero (s : State) : runLoop 0 s = .unfinished s := rfl

/-- Past the end of the Program the loop returns. -/
theorem runLoop_past_end {s : State} (fuel : Nat) (h : s.progLen ≤ s.pc) :
    runLoop (fuel + 1) s = .returned s := by
  simp only [runLoop, fetch_past_end h]

/-- Before the end a turn of the loop is a step, and returns on `HALT`. -/
theorem runLoop_step {s t : State} (fuel : Nat) (hp : s.pc < s.progLen) (hs : step s = .next t) :
    runLoop (fuel + 1) s = if nextInstr s = some .halt then .returned t else runLoop fuel t := by
  have hc : s.program[s.pc]? = some s.program[s.pc] := List.getElem?_eq_getElem hp
  rw [step_of_entry hc] at hs
  simp only [runLoop, fetch_of_entry hc, nextInstr_of_entry hc, hs, Option.some.injEq]

/-- The reset operation leaves the invariant, whatever the reset group held (R175, R176). -/
theorem resetOp_inv {s : State} (h : Program.wf s.program = true) : GlobalInv (resetOp s) :=
  ⟨rfl, h, Nat.zero_le _, nofun, nofun, nofun, List.Pairwise.nil⟩

end Sys2Proof.Machine
end

