-- ==== Sys2Proof/Tests/Slice0.lean ====
section
/-! SUPPORT. The model's own tests. Expected results are taken from spec/95_test_vectors.md and the worked examples
and corner cases of the instruction rules; each test is one step or one operation. Then, for every obligation with
hypotheses, a concrete state and operands that meet them (`witness_<obligation>`). -/

namespace Sys2Proof.Tests

open Sys2Proof Sys2Proof.Machine

/-- A state with the given Program and `PC`, the rest at reset. -/
def at_ (program : List Code) (pc : Nat) : State := { State.reset with program := program, pc := pc }

/-- Whether an outcome is the next state `t`. -/
def isNext (o : Host.Outcome State Fault Refusal) (t : State) : Bool :=
  match o with
  | .next u => decide (u = t)
  | _ => false

/-! ### Well-formedness: one ill-formed Program for each check (R16, R58) -/

theorem test_wf_accepts : Program.wf [1, 2, 9] = true := by decide
theorem test_wf_accepts_halt_alone : Program.wf [9] = true := by decide
theorem test_wf_refuses_empty : Program.endsInHalt [] = false ∧ Program.wf [] = false := by decide
theorem test_wf_refuses_no_halt : Program.endsInHalt [1, 2] = false ∧ Program.wf [1, 2] = false := by decide
theorem test_wf_refuses_early_halt : Program.noEarlyHalt [1, 9, 9] = false ∧ Program.wf [1, 9, 9] = false := by
  decide
theorem test_wf_refuses_reserved : Program.noReserved [10, 9] = false ∧ Program.wf [10, 9] = false := by decide

/-! ### The tape's canonical form (log 6) -/

theorem test_tape_wf_accepts : Memory.wf [(0, 7), (15, 1)] = true := by decide
theorem test_tape_wf_refuses_unsorted : Memory.wf [(3, 7), (0, 1)] = false := by decide
theorem test_tape_wf_refuses_repeat : Memory.wf [(3, 7), (3, 1)] = false := by decide
theorem test_tape_wf_refuses_zero : Memory.wf [(3, 0)] = false := by decide
theorem test_tape_wf_refuses_past_end : Memory.wf [(16, 1)] = false := by decide
theorem test_write_zero_removes : Memory.write [(2, 5), (4, 6)] 2 0 = [(4, 6)] := by decide

/-! ### Decoding: words written out from R52; tokens from R56; V-LOAD -/

theorem test_decode_nop : decode 0b0000#4 = .ok .nop := by decide
theorem test_decode_inc : decode 0b0001#4 = .ok .inc := by decide
theorem test_decode_dec : decode 0b0010#4 = .ok .dec := by decide
theorem test_decode_ptrLeft : decode 0b0011#4 = .ok .ptrLeft := by decide
theorem test_decode_ptrRight : decode 0b0100#4 = .ok .ptrRight := by decide
theorem test_decode_read : decode 0b0101#4 = .ok .read := by decide
theorem test_decode_write : decode 0b0110#4 = .ok .write := by decide
theorem test_decode_loopStart : decode 0b0111#4 = .ok .loopStart := by decide
theorem test_decode_loopEnd : decode 0b1000#4 = .ok .loopEnd := by decide
theorem test_decode_halt : decode 0b1001#4 = .ok .halt := by decide
theorem test_decode_reserved : decode 0b1010#4 = .error (.reserved 10) ∧ decode 0b1111#4 = .error (.reserved 15) := by
  decide
theorem test_table_word : decodeTableWord 8 0x8 = some .loopEnd ∧ decodeTableWord 8 0x0 = some .nop := by decide
/-- V-LOAD: tokens `+-<>,.[]` load as `123456789`. -/
theorem test_load_all_tokens :
    assemble ['+', '-', '<', '>', ',', '.', '[', ']'] = [1, 2, 3, 4, 5, 6, 7, 8, 9] := by decide
/-- V-LOAD: tokens `a+ b+.` load as `0100169`. -/
theorem test_load_unrecognised : assemble ['a', '+', ' ', 'b', '+', '.'] = [0, 1, 0, 0, 1, 6, 9] := by decide
theorem test_load_empty : assemble [] = [9] := by decide
/-- A character that does not fit 8 bits is a `NOP`, also where its low byte is that of `+` (R57). -/
theorem test_token_wide : tokenToOpcode (Char.ofNat 0x12B) = .nop := by decide

/-! ### Placing a word: it is the first instruction after reset -/

theorem test_withFetchWord_inc :
    isNext (step (State.reset.withFetchWord 8 1)) { at_ [1, 9] 1 with tape := [(0, 1)] } = true := by decide
theorem test_withFetchWord_halt : isNext (step (State.reset.withFetchWord 8 9)) (at_ [9] 1) = true := by decide

/-! ### Instructions, one step each -/

/-- V-NOP. -/
theorem test_nop :
    isNext (step { at_ [0, 9] 0 with mp := 3, tape := [(3, 200)], loopStack := [5], input := [1], output := [2] })
      { at_ [0, 9] 1 with mp := 3, tape := [(3, 200)], loopStack := [5], input := [1], output := [2] } = true := by
  decide
/-- R72: 255 wraps to 0. -/
theorem test_inc_wraps : isNext (step { at_ [1, 9] 0 with tape := [(0, 255)] }) (at_ [1, 9] 1) = true := by decide
/-- V-INC: only the current cell changes. -/
theorem test_inc_last_cell :
    isNext (step { at_ [1, 9] 0 with mp := 15, tape := [(0, 4), (15, 9)] })
      { at_ [1, 9] 1 with mp := 15, tape := [(0, 4), (15, 10)] } = true := by decide
/-- R73: 0 wraps to 255. -/
theorem test_dec_wraps : isNext (step (at_ [2, 9] 0)) { at_ [2, 9] 1 with tape := [(0, 255)] } = true := by decide
/-- V-DEC: 128 gives 127. -/
theorem test_dec_128 :
    isNext (step { at_ [2, 9] 0 with tape := [(0, 128)] }) { at_ [2, 9] 1 with tape := [(0, 127)] } = true := by
  decide
/-- V-PTR: 0 to 15. -/
theorem test_ptrLeft_wraps : isNext (step (at_ [3, 9] 0)) { at_ [3, 9] 1 with mp := 15 } = true := by decide
/-- V-PTR: 15 to 14. -/
theorem test_ptrLeft_15 :
    isNext (step { at_ [3, 9] 0 with mp := 15 }) { at_ [3, 9] 1 with mp := 14 } = true := by decide
/-- V-PTR: 15 stays 15. -/
theorem test_ptrRight_clamps :
    isNext (step { at_ [4, 9] 0 with mp := 15 }) { at_ [4, 9] 1 with mp := 15 } = true := by decide
/-- V-PTR: 14 to 15. -/
theorem test_ptrRight_14 :
    isNext (step { at_ [4, 9] 0 with mp := 14 }) { at_ [4, 9] 1 with mp := 15 } = true := by decide
/-- R90's example. -/
theorem test_read :
    isNext (step { at_ [5, 9] 0 with tape := [(0, 7)], input := [65, 66] })
      { at_ [5, 9] 1 with tape := [(0, 65)], input := [66] } = true := by decide
/-- V-READ: an empty queue stores 0. -/
theorem test_read_empty : isNext (step { at_ [5, 9] 0 with tape := [(0, 7)] }) (at_ [5, 9] 1) = true := by decide
/-- R91's example. -/
theorem test_write :
    isNext (step { at_ [6, 9] 0 with tape := [(0, 3)], output := [9] })
      { at_ [6, 9] 1 with tape := [(0, 3)], output := [9, 3] } = true := by decide
/-- V-LOOP: pushes even though the cell is 0. -/
theorem test_loopStart_zero_cell :
    isNext (step (at_ [7, 6, 8, 9] 0)) { at_ [7, 6, 8, 9] 1 with loopStack := [1] } = true := by decide
/-- V-LOOP: a nested push goes on top, at the end. -/
theorem test_loopStart_nested :
    isNext (exec .loopStart { at_ [9] 8 with loopStack := [3] }) { at_ [9] 8 with loopStack := [3, 8] } = true := by
  decide
/-- R101's example, the branch. -/
theorem test_loopEnd_branch :
    isNext (step { at_ [1, 1, 1, 7, 2, 8, 9] 5 with tape := [(0, 2)], loopStack := [4] })
      { at_ [1, 1, 1, 7, 2, 8, 9] 4 with tape := [(0, 2)], loopStack := [4] } = true := by decide
/-- V-LOOP: a zero cell pops the top only. -/
theorem test_loopEnd_pop :
    isNext (exec .loopEnd { at_ [9] 13 with loopStack := [3, 8] }) { at_ [9] 13 with loopStack := [3] } = true := by
  decide
/-- V-LOOP: an empty stack, with a non-zero cell: no operation. -/
theorem test_loopEnd_empty_stack :
    isNext (step { at_ [1, 8, 1, 6, 9] 1 with tape := [(0, 1)] })
      { at_ [1, 8, 1, 6, 9] 2 with tape := [(0, 1)] } = true := by decide
/-- V-HALT. -/
theorem test_halt :
    isNext (step { at_ [1, 9] 1 with tape := [(0, 1)] }) { at_ [1, 9] 2 with tape := [(0, 1)] } = true := by decide
/-- V-STEP: a step when halted changes nothing. -/
theorem test_step_halted : isNext (step (at_ [1, 9] 2)) (at_ [1, 9] 2) = true := by decide
/-- R58: a reserved code present in the store executes as `NOP`. -/
theorem test_reserved_code_step : isNext (step (at_ [12, 9] 0)) (at_ [12, 9] 1) = true := by decide

/-! ### Commands and query -/

/-- V-LOAD: `loadInput` after some steps. -/
theorem test_loadInput :
    issue 0 (.loadInput [72, 105]) { at_ [1, 9] 1 with tape := [(0, 1)], output := [1], input := [3] } =
      .returned { at_ [1, 9] 0 with input := [72, 105] } := by decide
/-- V-LOAD: `run()` on `+.` resets first, so the output is 1 and not 2. -/
theorem test_run_resets_first :
    issue 3 .run { at_ [1, 6, 9] 1 with tape := [(0, 1)] } =
      .returned { at_ [1, 6, 9] 3 with tape := [(0, 1)], output := [1] } := by decide
theorem test_run_needs_fuel : issue 2 .run (at_ [1, 6, 9] 0) =
      .unfinished { at_ [1, 6, 9] 2 with tape := [(0, 1)], output := [1] } := by decide
theorem test_query : (query { at_ [9] 0 with mp := 2, tape := [(1, 5)] }).tape =
      [0, 5, 0, 0, 0, 0, 0, 0, 0, 0, 0, 0, 0, 0, 0, 0] := by decide
/-- The document's one input example: `A` is byte 65. -/
theorem test_textToBytes : textToBytes ['A'] = some [65] := by decide
theorem test_textToBytes_wide : textToBytes ['A', 'Ω'] = none := by decide

/-! ### Witnesses: the hypotheses of each obligation can be met -/

/-- Inside a loop, at its `LOOP_END`, cell 2. -/
def inLoop : State := { at_ [1, 1, 1, 7, 2, 8, 9] 5 with tape := [(0, 2)], loopStack := [4] }

/-- A cell at its upper bound. -/
def full : State := { at_ [1, 9] 0 with mp := 15, tape := [(15, 255)] }

theorem inLoop_inv : GlobalInv inLoop :=
  ⟨by decide, by decide, by decide, by decide, by decide, by decide, by decide⟩

theorem step_inLoop : step inLoop = .next { inLoop with pc := 4 } := rfl

theorem witness_ReservedCodesExecuteAsNop :
    10 ≤ (10#4).toNat ∧ 10 ≤ (15#4).toNat ∧ (at_ [10, 9] 0).program[(at_ [10, 9] 0).pc]? = some 10#4 := by decide
theorem witness_UnrecognisedTokensBecomeNopAndNoneHalt :
    (['x'] : List Char)[0]? = some 'x' ∧ 'x' ∉ ['+', '-', '<', '>', ',', '.', '[', ']'] ∧
      (at_ (assemble ['x']) 0).program = assemble ['x'] ∧ (at_ (assemble ['x']) 0).pc = 0 := by decide
theorem witness_NopChangesNothingButPc :
    Char.ofNat 0 ∉ ['+', '-', '<', '>', ',', '.', '[', ']'] ∧ tokenToOpcode '+' ≠ .nop ∧
      (at_ [0, 9] 0).program[(at_ [0, 9] 0).pc]? = some 0b0000#4 := by decide
theorem witness_IncAddsOneModulo256 : Memory.wf full.tape = true ∧ memRead full.mp full = 255#8 := by decide
theorem witness_DecTakesOneModulo256 : Memory.wf State.reset.tape = true ∧ memRead 0 State.reset = 0#8 := by decide
theorem witness_ReadTakesHeadOrZero :
    Memory.wf full.tape = true ∧ full.input = [] ∧
      Memory.wf { full with input := [65, 66] }.tape = true ∧ { full with input := [65, 66] }.input ≠ [] := by decide
theorem witness_WriteIntoFullFiniteOutputIsRefused :
    ({ full with output := [9] } : State).output.length = 1 ∧ full.output.length < 1 ∧
      full.output.length = 0 := by decide
theorem witness_LoopStartPushesNextIndex :
    (at_ [7, 9] 0).program[(at_ [7, 9] 0).pc]? = some 0b0111#4 ∧ Program.wf (at_ [7, 9] 0).program = true := by decide
theorem witness_LoopEndBranchesPopsOrDoesNothing :
    State.reset.loopStack = [] ∧ (inLoop.loopStack = [] ++ [4] ∧ memRead inLoop.mp inLoop ≠ 0#8) ∧
      ({ inLoop with tape := [] } : State).loopStack = [] ++ [4] ∧
      memRead inLoop.mp { inLoop with tape := [] } = 0#8 := by decide
theorem witness_HaltEndsTheRun :
    Program.wf (at_ [1, 9] 1).program = true ∧ (at_ [1, 9] 1).program[(at_ [1, 9] 1).pc]? = some 0b1001#4 := by decide
theorem witness_RepeatedIncAndDecCountModulo256 : Memory.wf full.tape = true := by decide
theorem witness_IncAndDecAreInverse : Memory.wf full.tape = true ∧ Memory.wf State.reset.tape = true := by decide
theorem witness_PointerLawIsAsymmetric :
    2 ≤ 2 ∧ (0 : Fin 2).val = 2 - 2 ∧ (1 : Fin 2).val = 2 - 1 ∧ (0 : Fin 2).val = 0 := by decide
theorem witness_StepRunsTheDecodedEntry :
    (at_ [1, 9] 0).program[(at_ [1, 9] 0).pc]? = some 1#4 ∧ decode 1#4 = .ok .inc := by decide
theorem witness_StepWhenHaltedChangesNothing : (at_ [1, 9] 2).progLen ≤ (at_ [1, 9] 2).pc := by decide
theorem witness_StepWritesOnlyTheCurrentCell :
    Memory.wf inLoop.tape = true ∧ step inLoop = .next { inLoop with pc := 4 } ∧ (1 : Fin Config.cap) ≠ inLoop.mp ∧
      nextInstr inLoop ≠ some .inc ∧ nextInstr inLoop ≠ some .dec ∧ nextInstr inLoop ≠ some .read :=
  ⟨by decide, rfl, by decide, by decide, by decide, by decide⟩
theorem witness_StepWritesEachRegisterOnlyWhereAllowed :
    step inLoop = .next { inLoop with pc := 4 } ∧ nextInstr inLoop ≠ some .ptrLeft ∧
      nextInstr inLoop ≠ some .ptrRight ∧ inLoop.pc < inLoop.progLen ∧
      step (at_ [9] 0) = .next (at_ [9] 1) ∧ nextInstr (at_ [9] 0) ≠ some .loopStart ∧
      nextInstr (at_ [9] 0) ≠ some .loopEnd :=
  ⟨rfl, by decide, by decide, by decide, rfl, by decide, by decide⟩
theorem witness_StreamsOnlyMoveForward :
    step { at_ [5, 9] 0 with input := [65] } = .next { at_ [5, 9] 1 with tape := [(0, 65)] } ∧
      nextInstr { at_ [5, 9] 0 with input := [65] } = some .read ∧
      step (at_ [6, 9] 0) = .next { at_ [6, 9] 1 with output := [0] } ∧ nextInstr (at_ [6, 9] 0) = some .write ∧
      nextInstr inLoop ≠ some .read ∧ nextInstr inLoop ≠ some .write ∧
      stepTimes 1 inLoop = .next { inLoop with pc := 4 } :=
  ⟨rfl, by decide, rfl, by decide, by decide, by decide, rfl⟩
theorem witness_EveryStepKeepsTheInvariant : GlobalInv inLoop ∧ step inLoop = .next { inLoop with pc := 4 } :=
  ⟨inLoop_inv, rfl⟩
theorem witness_EveryCommandKeepsTheInvariant : GlobalInv inLoop := inLoop_inv
theorem witness_LoopStackIsBoundedByLoopStarts : GlobalInv inLoop ∧ inLoop.loopStack ≠ [] := ⟨inLoop_inv, by decide⟩
theorem witness_LoopStackDepthCountsPushesAndPops :
    stepTimes 1 (at_ [7, 8, 9] 0) = .next { at_ [7, 8, 9] 1 with loopStack := [1] } ∧
      stepTimes 2 (at_ [7, 8, 9] 0) = .next (at_ [7, 8, 9] 2) := ⟨rfl, rfl⟩
theorem witness_HaltedExactlyAfterFetchingHalt :
    GlobalInv (at_ [1, 9] 1) ∧ step (at_ [1, 9] 1) = .next (at_ [1, 9] 2) ∧ (at_ [1, 9] 1).halted = false :=
  ⟨⟨by decide, by decide, by decide, by decide, by decide, by decide, by decide⟩, rfl, by decide⟩
theorem witness_TakenBranchGoesBackwards :
    GlobalInv inLoop ∧ step inLoop = .next { inLoop with pc := 4 } ∧ nextInstr inLoop = some .loopEnd ∧
      inLoop.loopStack ≠ [] ∧ memRead inLoop.mp inLoop ≠ 0#8 :=
  ⟨inLoop_inv, rfl, by decide, by decide, by decide⟩
theorem witness_EmptyLoopOnNonZeroCellNeverEnds :
    let s : State := { at_ [1, 7, 8, 9] 2 with tape := [(0, 1)], loopStack := [2] }
    s.program[s.pc]? = some (encode .loopEnd) ∧ s.loopStack = [] ++ [s.pc] ∧ memRead s.mp s ≠ 0#8 := by decide
theorem witness_LoopBodyRunsBeforeTheFirstTest :
    let s : State := at_ [7, 1, 8, 9] 0
    let u : State := { at_ [7, 1, 8, 9] 2 with tape := [(0, 1)], loopStack := [1] }
    let v : State := { at_ [7, 0, 8, 9] 2 with loopStack := [1] }
    (s.program[s.pc]? = some (encode .loopStart) ∧
      stepTimes 1 { s with pc := 1, loopStack := s.loopStack ++ [1] } = .next u ∧
      u.program[u.pc]? = some (encode .loopEnd) ∧ u.loopStack = s.loopStack ++ [1] ∧ memRead u.mp u ≠ 0#8) ∧
      (stepTimes 1 { at_ [7, 0, 8, 9] 1 with loopStack := [1] } = .next v ∧
        v.program[v.pc]? = some (encode .loopEnd) ∧ v.loopStack = [1] ∧ memRead v.mp v = 0#8) :=
  ⟨⟨by decide, rfl, by decide, by decide, by decide⟩, rfl, by decide, by decide, by decide⟩

/-- The loop `[-]` meets the do-while law's hypotheses, with a body of one step, and from a zero cell too. -/
theorem witness_DoWhileLoopRunsBodyNTimes :
    let p : List Code := [7, 2, 8, 9]
    p[0]? = some (encode .loopStart) ∧ p[2]? = some (encode .loopEnd) ∧
    (∀ t : State, t.program = p → t.pc = 0 + 1 → t.mp = 0 → t.loopStack = [] ++ [0 + 1] →
      Memory.wf t.tape = true →
      ∃ u, stepTimes 1 t = .next u ∧ u.program = p ∧ u.pc = 2 ∧ u.mp = 0 ∧
        u.loopStack = [] ++ [0 + 1] ∧ Memory.wf u.tape = true ∧ memRead 0 u = memRead 0 t - 1#8) ∧
    ((at_ p 0).program = p ∧ (at_ p 0).pc = 0 ∧ (at_ p 0).mp = 0 ∧ (at_ p 0).loopStack = [] ∧
      Memory.wf (at_ p 0).tape = true ∧ memRead 0 (at_ p 0) = 0#8) ∧
    (Memory.wf { at_ p 0 with tape := [(0, 3)] }.tape = true ∧
      memRead 0 { at_ p 0 with tape := [(0, 3)] } = 3#8) := by
  refine ⟨by decide, by decide, ?_, by decide, by decide⟩
  intro t hp hpc hmp hst hw
  have hc : t.program[t.pc]? = some 2#4 := by rw [hp, hpc]; rfl
  have hs : step t = .next (setCur (cellDec (cur (setPc (t.pc + 1) t))) (setPc (t.pc + 1) t)) := by
    rw [step_of_entry hc]
    rfl
  refine ⟨setCur (cellDec (cur (setPc (t.pc + 1) t))) (setPc (t.pc + 1) t), by rw [stepTimes_succ hs]; rfl, hp,
    by simp [hpc], hmp, hst, setCur_wf (s := setPc (t.pc + 1) t) hw, ?_⟩
  rw [memRead_setCur (s := setPc (t.pc + 1) t) hw, setPc_mp, hmp, if_pos rfl, cur_setPc, cur, hmp]
  rfl

theorem witness_OversizeLoadsAreRefused :
    1 < ['+'].length + 1 ∧ ['+'].length + 1 ≤ 2 ∧ 1 < [65#8, 66#8].length ∧ [65#8, 66#8].length ≤ 2 := by decide
theorem witness_InputTextConvertsByteByByte : ∃ c ∈ ['A', Char.ofNat 256], 255 < c.toNat :=
  ⟨Char.ofNat 256, by decide, by decide⟩
theorem witness_LoadGroupIsWrittenOnlyByLoads :
    issue 0 (.loadProgram ['+']) full = .returned (at_ [1, 9] 0) ∧
      issue 0 (.loadInput [65]) full = .returned { at_ [1, 9] 0 with input := [65] } ∧
      issue 0 .reset full = .returned (at_ [1, 9] 0) ∧
      issue 2 .run { full with program := [5, 9], input := [0, 66] } = .returned { at_ [5, 9] 2 with input := [66] } ∧
      issue 0 .step (at_ [4, 9] 0) = .returned { at_ [4, 9] 1 with mp := 1 } ∧
      nextInstr (at_ [4, 9] 0) ≠ some .read := by
  decide
theorem witness_RunIsResetThenStepsUntilHalted :
    Program.wf full.program = true ∧ run 2 full = .returned { at_ [1, 9] 2 with tape := [(0, 1)] } ∧
      stepTimes 2 (resetOp full) = .next { at_ [1, 9] 2 with tape := [(0, 1)] } := ⟨by decide, by decide, rfl⟩
theorem witness_RunEndsHaltedWhateverTheFuel :
    Program.wf full.program = true ∧ run 2 full = .returned { at_ [1, 9] 2 with tape := [(0, 1)] } ∧ 2 ≤ 3 := by
  decide
theorem witness_RunDependsOnlyOnProgramAndInput :
    full.program = (at_ [1, 9] 0).program ∧ full.input = (at_ [1, 9] 0).input ∧ full ≠ at_ [1, 9] 0 := by decide
theorem witness_ResetIsIdempotent :
    full.program = (at_ [1, 9] 0).program ∧ full.input = (at_ [1, 9] 0).input ∧ full ≠ at_ [1, 9] 0 := by decide
theorem witness_QueryShowsTheFourExposedElements :
    let s' : State := { full with loopStack := [1], input := [2], program := [9] }
    full.pc = s'.pc ∧ full.mp = s'.mp ∧ full.tape = s'.tape ∧ full.output = s'.output ∧ full ≠ s' := by decide

end Sys2Proof.Tests
end

section
/-! PROOFS. The load group (R22): which instructions, steps and commands write `Program` or `InputQueue`. -/

namespace Sys2Proof.Machine

/-! ### The execute phase -/

/-- Every instruction completes in every state (R150). -/
theorem exec_total (i : Instr) (s : State) : ∃ t, exec i s = .next t := by
  cases i
  case read => exact ⟨_, exec_read s⟩
  case loopEnd =>
    rcases List.eq_nil_or_concat' s.loopStack with hs | ⟨below, e, hs⟩
    · exact ⟨_, exec_loopEnd_nil hs⟩
    · by_cases hc : cur s = 0#8
      · exact ⟨_, exec_loopEnd_pop hs hc⟩
      · exact ⟨_, exec_loopEnd_branch hs hc⟩
  all_goals exact ⟨_, rfl⟩

/-- No instruction writes `Program` (R16). -/
theorem exec_program {i : Instr} {s t : State} (h : exec i s = .next t) : t.program = s.program := by
  rcases exec_next_cases h with ⟨-, rfl⟩ | ⟨-, rfl⟩ | ⟨-, rfl⟩ | ⟨-, rfl⟩ | ⟨-, rfl⟩ | ⟨-, rfl⟩ | ⟨-, rfl⟩ |
    ⟨-, rfl⟩ | ⟨-, -, rfl⟩ | ⟨-, _, _, -, ⟨-, rfl⟩ | ⟨-, rfl⟩⟩ <;> rfl

/-- `READ` removes the head of the queue, if there is one; no other instruction writes `InputQueue` (R19). -/
theorem exec_input {i : Instr} {s t : State} (h : exec i s = .next t) :
    t.input = if i = .read then s.input.tail else s.input := by
  rcases exec_next_cases h with ⟨rfl | rfl, rfl⟩ | ⟨rfl, rfl⟩ | ⟨rfl, rfl⟩ | ⟨rfl, rfl⟩ | ⟨rfl, rfl⟩ | ⟨rfl, rfl⟩ |
    ⟨rfl, rfl⟩ | ⟨rfl, rfl⟩ | ⟨rfl, -, rfl⟩ | ⟨rfl, _, _, -, ⟨-, rfl⟩ | ⟨-, rfl⟩⟩ <;> rfl

/-! ### Steps -/

/-- A step answers a next state in every state (R150). -/
theorem step_total (s : State) : ∃ t, step s = .next t := by
  rcases step_cases s with ⟨-, hs⟩ | ⟨c, -, -, hs⟩
  · exact ⟨s, hs⟩
  · rw [hs]
    exact exec_total _ _

/-- A fetch past the end names no opcode. -/
theorem nextInstr_past_end {s : State} (h : s.progLen ≤ s.pc) : nextInstr s = none := by
  rw [nextInstr, fetch_past_end h, Option.map_none]

/-- No step writes `Program`. -/
theorem step_program {s t : State} (h : step s = .next t) : t.program = s.program := by
  rcases step_cases s with ⟨-, hs⟩ | ⟨c, -, -, hs⟩
  · rw [hs] at h
    rw [Host.Outcome.next.inj h]
  · rw [hs] at h
    exact (exec_program h).trans (setPc_program _ s)

/-- A step writes `InputQueue` only where it executes `READ`. -/
theorem step_input {s t : State} (h : step s = .next t) :
    t.input = if nextInstr s = some .read then s.input.tail else s.input := by
  rcases step_cases s with ⟨hp, hs⟩ | ⟨c, hc, -, hs⟩
  · rw [hs] at h
    rw [nextInstr_past_end hp, if_neg nofun, Host.Outcome.next.inj h]
  · rw [hs] at h
    simp only [exec_input h, nextInstr_of_entry hc, Option.some.injEq, setPc_input]

/-- What a step leaves of `InputQueue` is a suffix of what it found. -/
theorem step_input_suffix {s t : State} (h : step s = .next t) : t.input <:+ s.input := by
  rw [step_input h]
  split
  · exact List.tail_suffix _
  · exact List.suffix_rfl

/-- No number of steps writes `Program`. -/
theorem stepTimes_program {k : Nat} {s t : State} (h : stepTimes k s = .next t) : t.program = s.program := by
  induction k generalizing s with
  | zero => rw [← Host.Outcome.next.inj h]
  | succ k ih =>
    obtain ⟨u, hs, hu⟩ := stepTimes_succ_inv h
    exact (ih hu).trans (step_program hs)

/-- What any number of steps leaves of `InputQueue` is a suffix of what the first found. -/
theorem stepTimes_input_suffix {k : Nat} {s t : State} (h : stepTimes k s = .next t) : t.input <:+ s.input := by
  induction k generalizing s with
  | zero => rw [← Host.Outcome.next.inj h]
  | succ k ih =>
    obtain ⟨u, hs, hu⟩ := stepTimes_succ_inv h
    exact (ih hu).trans (step_input_suffix hs)

/-! ### Commands -/

/-- The loop of `run` returns only states that steps reach. -/
theorem stepTimes_of_runLoop {fuel : Nat} {s t : State} (h : runLoop fuel s = .returned t) :
    ∃ k, stepTimes k s = .next t := by
  induction fuel generalizing s with
  | zero => exact nomatch h
  | succ fuel ih =>
    by_cases hp : s.progLen ≤ s.pc
    · rw [runLoop_past_end fuel hp] at h
      exact ⟨0, congrArg Host.Outcome.next (Response.returned.inj h)⟩
    · obtain ⟨u, hs⟩ := step_total s
      rw [runLoop_step fuel (Nat.lt_of_not_le hp) hs] at h
      split at h
      · exact ⟨1, (stepTimes_succ hs).trans (congrArg Host.Outcome.next (Response.returned.inj h))⟩
      · obtain ⟨k, hk⟩ := ih h
        exact ⟨k + 1, (stepTimes_succ hs).trans hk⟩

/-- A Program load returns the reset state with the new Program; the store is unbounded (R125; log 2). -/
@[simp] theorem issue_loadProgram (fuel : Nat) (tokens : List Char) (s : State) :
    issue fuel (.loadProgram tokens) s = .returned (resetOp { s with program := assemble tokens }) := rfl

/-- An input load returns the reset state with the new queue; the buffer is unbounded (R126; log 2). -/
@[simp] theorem issue_loadInput (fuel : Nat) (bytes : List Byte) (s : State) :
    issue fuel (.loadInput bytes) s = .returned (resetOp { s with input := bytes }) := rfl

@[simp] theorem issue_reset (fuel : Nat) (s : State) : issue fuel .reset s = .returned (resetOp s) := rfl

@[simp] theorem issue_run (fuel : Nat) (s : State) : issue fuel .run s = runLoop fuel (resetOp s) := rfl

/-- The step command returns what a step answers (R121). -/
theorem issue_step_of_next {s t : State} (fuel : Nat) (h : step s = .next t) :
    issue fuel .step s = .returned t := by
  simp only [issue, h]

/-- A step command returns a state only where the step answers it. -/
theorem step_of_issue_step {fuel : Nat} {s t : State} (h : issue fuel .step s = .returned t) :
    step s = .next t := by
  obtain ⟨u, hu⟩ := step_total s
  rw [issue_step_of_next fuel hu] at h
  rw [hu, Response.returned.inj h]

/-- A returned command that is no load leaves `Program` as it was and of `InputQueue` a suffix (R22). -/
theorem issue_load_group_of_not_load {fuel : Nat} {c : Command} {s t : State} (h : issue fuel c s = .returned t)
    (hp : ∀ tokens, c ≠ .loadProgram tokens) (hi : ∀ bytes, c ≠ .loadInput bytes) :
    t.program = s.program ∧ t.input <:+ s.input := by
  cases c with
  | loadProgram tokens => exact absurd rfl (hp tokens)
  | loadInput bytes => exact absurd rfl (hi bytes)
  | reset =>
    rw [issue_reset] at h
    rw [← Response.returned.inj h]
    exact ⟨resetOp_program s, List.suffix_rfl⟩
  | step =>
    have hs := step_of_issue_step h
    exact ⟨step_program hs, step_input_suffix hs⟩
  | run =>
    rw [issue_run] at h
    obtain ⟨k, hk⟩ := stepTimes_of_runLoop h
    exact ⟨(stepTimes_program hk).trans (resetOp_program s), resetOp_input s ▸ stepTimes_input_suffix hk⟩

/-- Settles O43: the loads and the reset by their equations, the other commands through the steps they take. -/
theorem loadGroupIsWrittenOnlyByLoads : Obligations.LoadGroupIsWrittenOnlyByLoads := by
  unfold Obligations.LoadGroupIsWrittenOnlyByLoads
  intro fuel c s t h
  refine ⟨?_, ?_, fun hp hi => ?_, ?_, ?_⟩
  · rintro tokens rfl
    rw [issue_loadProgram] at h
    exact (Response.returned.inj h).symm
  · rintro bytes rfl
    rw [issue_loadInput] at h
    exact (Response.returned.inj h).symm
  · obtain ⟨hprog, taken, hin⟩ := issue_load_group_of_not_load h hp hi
    exact ⟨hprog, taken, hin.symm⟩
  · rintro rfl
    rw [issue_reset] at h
    exact (Response.returned.inj h).symm
  · rintro rfl hread
    rw [step_input (step_of_issue_step h), if_neg hread]

end Sys2Proof.Machine
end

section
/-! PROOFS. Loading (R56, R57, R125): what each token becomes and where its entry stands. -/

namespace Sys2Proof

/-! ### Tokens -/

/-- The eight tokens that have an opcode of their own (R56). -/
def recognisedTokens : List Char := ['+', '-', '<', '>', ',', '.', '[', ']']

/-- A character's byte is its code point. -/
theorem toNat_of_charToByte {c : Char} {b : Byte} (h : charToByte c = some b) : b.toNat = c.toNat := by
  obtain ⟨hlt, hb⟩ := Option.ite_none_right_eq_some.mp h
  rw [← Option.some.inj hb]
  exact Nat.mod_eq_of_lt hlt

/-- Characters with one byte are one character. -/
theorem charToByte_injective {c d : Char} {b : Byte} (hc : charToByte c = some b) (hd : charToByte d = some b) :
    c = d :=
  Char.toNat_inj.mp ((toNat_of_charToByte hc).symm.trans (toNat_of_charToByte hd))

/-- A byte is a `NOP` unless it is the byte of one of the eight tokens. -/
theorem byteToOpcode_cases (b : Byte) :
    byteToOpcode b = .nop ∨ ∃ d ∈ recognisedTokens, charToByte d = some b := by
  unfold byteToOpcode
  split
  case h_9 => exact .inl rfl
  all_goals exact .inr (by simp [recognisedTokens, charToByte])

/-- No byte gives `HALT` (R57). -/
theorem byteToOpcode_ne_halt (b : Byte) : byteToOpcode b ≠ .halt := by
  unfold byteToOpcode
  split <;> nofun

/-- No token gives `HALT` (R57). -/
theorem tokenToOpcode_ne_halt (c : Char) : tokenToOpcode c ≠ .halt := by
  unfold tokenToOpcode
  split
  · exact byteToOpcode_ne_halt _
  · nofun

/-- Every token but the eight is a `NOP`, with a byte value or without one (R57, D9). -/
theorem tokenToOpcode_of_not_recognised {c : Char} (hc : c ∉ recognisedTokens) : tokenToOpcode c = .nop := by
  unfold tokenToOpcode
  split
  next b hb =>
    rcases byteToOpcode_cases b with hnop | ⟨d, hd, hdb⟩
    · exact hnop
    · exact absurd (charToByte_injective hb hdb ▸ hd) hc
  next => rfl

/-! ### The loaded Program -/

/-- A loaded Program has one entry a token and the final one. -/
@[simp] theorem assemble_length (tokens : List Char) : (assemble tokens).length = tokens.length + 1 := by
  simp [assemble]

/-- The entry behind the tokens' entries is the appended `HALT`. -/
theorem assemble_halt (tokens : List Char) : (assemble tokens)[tokens.length]? = some (encode .halt) := by
  simp [assemble]

/-- Entry `k` of a loaded Program is the code of the `k`-th token's opcode. -/
theorem assemble_token {tokens : List Char} {k : Nat} {c : Char} (h : tokens[k]? = some c) :
    (assemble tokens)[k]? = some (encode (tokenToOpcode c)) := by
  have hk : k < tokens.length := (List.getElem?_eq_some_iff.mp h).1
  rw [assemble, List.getElem?_append_left (by rwa [List.length_map]), List.getElem?_map, h, Option.map_some]

/-- No token's entry is a `HALT` (R57). -/
theorem assemble_token_ne_halt {tokens : List Char} {k : Nat} {c : Char} (h : tokens[k]? = some c) :
    (assemble tokens)[k]? ≠ some (encode .halt) := by
  rw [assemble_token h]
  exact fun heq => tokenToOpcode_ne_halt c (encode_injective (Option.some.inj heq))

end Sys2Proof

namespace Sys2Proof.Machine

/-- A step at a `NOP` entry advances `PC` and changes nothing else (R71). -/
theorem step_of_nop_entry {s : State} (h : s.program[s.pc]? = some (encode .nop)) :
    step s = .next { s with pc := s.pc + 1 } :=
  step_of_entry h

/-- Settles O5: the entries by their index, an unrecognised token through the token map's default. -/
theorem unrecognisedTokensBecomeNopAndNoneHalt : Obligations.UnrecognisedTokensBecomeNopAndNoneHalt := by
  unfold Obligations.UnrecognisedTokensBecomeNopAndNoneHalt
  intro tokens
  refine ⟨assemble_length tokens, assemble_halt tokens, fun k c h =>
    ⟨assemble_token h, assemble_token_ne_halt h, tokenToOpcode_ne_halt c, fun hc => ?_⟩⟩
  have hnop : (assemble tokens)[k]? = some (encode .nop) :=
    (assemble_token h).trans (by rw [tokenToOpcode_of_not_recognised hc])
  refine ⟨hnop, ?_⟩
  rintro s hprog rfl
  exact step_of_nop_entry (hprog ▸ hnop)

end Sys2Proof.Machine
end

section
/-! PROOFS. `NOP`, `INC` and `DEC` (R71 to R73). -/

namespace Sys2Proof

/-- Every token that is not a `NOP` is one of the eight (R57). -/
theorem mem_recognisedTokens_of_ne_nop {c : Char} (h : tokenToOpcode c ≠ .nop) : c ∈ recognisedTokens :=
  not_imp_comm.mp tokenToOpcode_of_not_recognised h

/-- The eight tokens have eight different opcodes (R56). -/
theorem recognisedTokens_map_nodup : (recognisedTokens.map tokenToOpcode).Nodup := by decide

/-- `NOP` is the only opcode of more than one token (R57, R71). -/
theorem eq_of_tokenToOpcode_eq {c d : Char} (h : tokenToOpcode c = tokenToOpcode d)
    (hne : tokenToOpcode c ≠ .nop) : c = d :=
  List.inj_on_of_nodup_map recognisedTokens_map_nodup (mem_recognisedTokens_of_ne_nop hne)
    (mem_recognisedTokens_of_ne_nop (h ▸ hne)) h

end Sys2Proof

namespace Sys2Proof.Machine

/-! ### Arithmetic on a cell, and the frame of a write to the current cell -/

/-- `cellInc` as a number (R70(a)). -/
theorem cellInc_toNat (v : Byte) : (cellInc v).toNat = (v.toNat + 1) % 256 :=
  BitVec.toNat_add v 1#8

/-- `cellDec` as a number, with the floor modulus of the integers (R70(a)). -/
theorem cellDec_toNat (v : Byte) : ((cellDec v).toNat : Int) = ((v.toNat : Int) - 1) % 256 := by
  have hsub : (cellDec v).toNat = (2 ^ 8 - 1 + v.toNat) % 2 ^ 8 := BitVec.toNat_sub v 1#8
  omega

/-- A write to the current cell puts the value there and leaves every other cell and element as it was (R38). -/
theorem setCur_result_and_frame (v : Byte) {s : State} (hm : Memory.wf s.tape = true) :
    memRead s.mp (setCur v s) = v ∧
      (∀ a, a ≠ s.mp → memRead a (setCur v s) = memRead a s) ∧
      setCur v s = { s with tape := (setCur v s).tape } :=
  ⟨cur_setCur hm, fun _ ha => (memRead_setCur hm).trans (if_neg ha), rfl⟩

/-! ### The three instructions -/

/-- Settles O7: the token map is injective away from `NOP`; a step at a `NOP` entry is its fetch alone. -/
theorem nopChangesNothingButPc : Obligations.NopChangesNothingButPc := by
  unfold Obligations.NopChangesNothingButPc
  obtain ⟨-, hcode, -⟩ := Laws.Encoding.nop
  exact ⟨hcode, fun _ hc => tokenToOpcode_of_not_recognised hc, fun _ _ h hne => eq_of_tokenToOpcode_eq h hne,
    exec_nop, fun _ hentry => step_of_nop_entry hentry⟩

/-- Settles O8: `INC` writes `cellInc` of the current cell to it. -/
theorem incAddsOneModulo256 : Obligations.IncAddsOneModulo256 := by
  unfold Obligations.IncAddsOneModulo256
  obtain ⟨-, hcode, -⟩ := Laws.Encoding.inc
  refine ⟨hcode, rfl, rfl, fun s hm => ?_⟩
  obtain ⟨hcell, hcells, hrest⟩ := setCur_result_and_frame (cellInc (cur s)) hm
  refine ⟨_, exec_inc s, ?_, hcells, hrest⟩
  rw [hcell, cellInc_toNat, cur]

/-- Settles O9: `DEC` writes `cellDec` of the current cell to it. -/
theorem decTakesOneModulo256 : Obligations.DecTakesOneModulo256 := by
  unfold Obligations.DecTakesOneModulo256
  obtain ⟨-, hcode, -⟩ := Laws.Encoding.dec
  refine ⟨hcode, rfl, rfl, fun s hm => ?_⟩
  obtain ⟨hcell, hcells, hrest⟩ := setCur_result_and_frame (cellDec (cur s)) hm
  refine ⟨_, exec_dec s, ?_, hcells, hrest⟩
  rw [hcell, cellDec_toNat, cur]

end Sys2Proof.Machine
end

section
/-! PROOFS. `PTR_LEFT` and `PTR_RIGHT` (R80 to R82): the pointer law, one move and any number of moves. -/

namespace Sys2Proof.Machine

/-! ### The pointer law (R80), for any capacity -/

/-- Away from the right end `Left` undoes `Right`. -/
theorem ptrLeftOf_ptrRightOf {cap : Nat} {p : Fin cap} (h : p.val ≠ cap - 1) : ptrLeftOf (ptrRightOf p) = p := by
  apply Fin.ext
  rw [ptrLeftOf_val, ptrRightOf_val, if_neg h, if_neg (Nat.succ_ne_zero _), Nat.add_sub_cancel]

/-- Away from the left end `Right` undoes `Left`. -/
theorem ptrRightOf_ptrLeftOf {cap : Nat} {p : Fin cap} (h : p.val ≠ 0) : ptrRightOf (ptrLeftOf p) = p := by
  have hp := p.isLt
  apply Fin.ext
  rw [ptrRightOf_val, ptrLeftOf_val, if_neg h, if_neg (by omega)]
  omega

/-- The right end is the fixed point of `Right`. -/
theorem ptrRightOf_of_last {cap : Nat} {p : Fin cap} (h : p.val = cap - 1) : ptrRightOf p = p := by
  apply Fin.ext
  rw [ptrRightOf_val, if_pos h, h]

/-- `Left` takes the left end to the right end. -/
theorem ptrLeftOf_val_of_zero {cap : Nat} {p : Fin cap} (h : p.val = 0) : (ptrLeftOf p).val = cap - 1 := by
  rw [ptrLeftOf_val, if_pos h]

/-- At the right end `Right` stays, and `Left` then moves one cell away from it. -/
theorem ptrLeftOf_ptrRightOf_val_of_last {cap : Nat} (hcap : 2 ≤ cap) {p : Fin cap} (h : p.val = cap - 1) :
    (ptrLeftOf (ptrRightOf p)).val = cap - 2 := by
  rw [ptrRightOf_of_last h, ptrLeftOf_val, if_neg (by omega), h, Nat.sub_sub]

/-- At the left end `Left` wraps to the right end, where `Right` stays. -/
theorem ptrRightOf_ptrLeftOf_val_of_zero {cap : Nat} {p : Fin cap} (h : p.val = 0) :
    (ptrRightOf (ptrLeftOf p)).val = cap - 1 := by
  rw [ptrRightOf_of_last (ptrLeftOf_val_of_zero h), ptrLeftOf_val_of_zero h]

/-- `Left` undoes `Right` at every cell but the right end. -/
theorem ptrLeftOf_ptrRightOf_eq_iff {cap : Nat} (hcap : 2 ≤ cap) {p : Fin cap} :
    ptrLeftOf (ptrRightOf p) = p ↔ p.val ≠ cap - 1 := by
  refine ⟨fun heq hlast => ?_, ptrLeftOf_ptrRightOf⟩
  have hval := ptrLeftOf_ptrRightOf_val_of_last hcap hlast
  rw [heq] at hval
  omega

/-- `Right` undoes `Left` at every cell but the left end. -/
theorem ptrRightOf_ptrLeftOf_eq_iff {cap : Nat} (hcap : 2 ≤ cap) {p : Fin cap} :
    ptrRightOf (ptrLeftOf p) = p ↔ p.val ≠ 0 := by
  refine ⟨fun heq hzero => ?_, ptrRightOf_ptrLeftOf⟩
  have hval := ptrRightOf_ptrLeftOf_val_of_zero hzero
  rw [heq] at hval
  omega

/-- The two cells at the right end have one image under `Right`. -/
theorem ptrRightOf_eq_of_last_two {cap : Nat} (hcap : 2 ≤ cap) {p q : Fin cap} (hp : p.val = cap - 2)
    (hq : q.val = cap - 1) : ptrRightOf p = ptrRightOf q := by
  apply Fin.ext
  rw [ptrRightOf_val, ptrRightOf_val, if_neg (by omega), if_pos hq]
  omega

/-- `Right` has no inverse. -/
theorem ptrRightOf_not_injective {cap : Nat} (hcap : 2 ≤ cap) :
    ¬ Function.Injective (ptrRightOf : Fin cap → Fin cap) := by
  intro hinj
  have hends : (⟨cap - 2, by omega⟩ : Fin cap) = ⟨cap - 1, by omega⟩ :=
    hinj (ptrRightOf_eq_of_last_two hcap rfl rfl)
  have hvals := Fin.mk.inj hends
  omega

/-! ### Any number of moves -/

/-- `k` moves to the left, once around at the most: the pointer passes the left end at most once. -/
theorem iterate_ptrLeftOf_val {cap k : Nat} (hk : k ≤ cap) (p : Fin cap) :
    (ptrLeftOf^[k] p).val = if k ≤ p.val then p.val - k else p.val + cap - k := by
  have hp := p.isLt
  induction k with
  | zero => rfl
  | succ k ih =>
    rw [Function.iterate_succ_apply', ptrLeftOf_val, ih (by omega)]
    split_ifs <;> omega

/-- `cap` moves to the left go once around. -/
theorem iterate_ptrLeftOf_cap {cap : Nat} (p : Fin cap) : ptrLeftOf^[cap] p = p := by
  apply Fin.ext
  rw [iterate_ptrLeftOf_val le_rfl, if_neg (Nat.not_le.mpr p.isLt), Nat.add_sub_cancel]

/-- `k` moves to the right stop at the right end. -/
theorem iterate_ptrRightOf_val {cap : Nat} (k : Nat) (p : Fin cap) :
    (ptrRightOf^[k] p).val = min (p.val + k) (cap - 1) := by
  have hp := p.isLt
  induction k with
  | zero => exact (Nat.min_eq_left (by omega)).symm
  | succ k ih =>
    rw [Function.iterate_succ_apply', ptrRightOf_val, ih]
    split_ifs <;> omega

/-- `Left` is injective: going on around from equal images comes back to equal cells. -/
theorem ptrLeftOf_injective (cap : Nat) : Function.Injective (ptrLeftOf : Fin cap → Fin cap) := by
  intro p q h
  have hcap : cap - 1 + 1 = cap := Nat.sub_add_cancel p.pos
  calc p = ptrLeftOf^[cap - 1 + 1] p := by rw [hcap, iterate_ptrLeftOf_cap]
    _ = ptrLeftOf^[cap - 1 + 1] q := by rw [Function.iterate_succ_apply, h, Function.iterate_succ_apply]
    _ = q := by rw [hcap, iterate_ptrLeftOf_cap]

/-! ### The instructions -/

/-- An instruction repeated: the first of them, then the rest. -/
theorem execTimes_succ {i : Instr} {s t : State} (k : Nat) (h : exec i s = .next t) :
    execTimes i (k + 1) s = execTimes i k t := by
  rw [execTimes, h]

/-- An instruction that applies `f` to `MP` and does nothing else, repeated, iterates `f` on `MP`. -/
theorem execTimes_of_exec_setMp {i : Instr} {f : Fin Config.cap → Fin Config.cap}
    (h : ∀ s, exec i s = .next (setMp (f s.mp) s)) (k : Nat) (s : State) :
    execTimes i k s = .next (setMp (f^[k] s.mp) s) := by
  induction k generalizing s with
  | zero => rfl
  | succ k ih =>
    rw [execTimes_succ k (h s), ih, Function.iterate_succ_apply]
    rfl

/-- Settles O10: the moves in a row go once around the tape. -/
theorem ptrLeftWraps : Obligations.PtrLeftWraps := by
  unfold Obligations.PtrLeftWraps
  obtain ⟨-, hcode, -⟩ := Laws.Encoding.ptrLeft
  refine ⟨hcode, rfl, rfl, fun s => ⟨_, exec_ptrLeft s, ptrLeftOf_val s.mp, rfl⟩, fun s => ?_,
    fun _ => Subsingleton.elim _ _⟩
  rw [execTimes_of_exec_setMp exec_ptrLeft, iterate_ptrLeftOf_cap]
  rfl

/-- Settles O11: the moves in a row stop at the right end. -/
theorem ptrRightClamps : Obligations.PtrRightClamps := by
  unfold Obligations.PtrRightClamps
  obtain ⟨-, hcode, -⟩ := Laws.Encoding.ptrRight
  exact ⟨hcode, rfl, rfl, fun s => ⟨_, exec_ptrRight s, ptrRightOf_val s.mp, rfl⟩,
    fun s k => ⟨_, execTimes_of_exec_setMp exec_ptrRight k s, iterate_ptrRightOf_val k s.mp, rfl⟩,
    fun _ => Subsingleton.elim _ _⟩

/-- Settles O20: each value by its law; an injective `Left` on finitely many cells is bijective. -/
theorem pointerLawIsAsymmetric : Obligations.PointerLawIsAsymmetric := by
  unfold Obligations.PointerLawIsAsymmetric
  refine ⟨fun cap hcap p => ?_, fun cap => ?_, fun cap hcap p q => ?_, fun s => ?_⟩
  · exact ⟨ptrLeftOf_val p, ptrRightOf_val p,
      ptrLeftOf_ptrRightOf_eq_iff hcap, ptrLeftOf_ptrRightOf_val_of_last hcap,
      ptrRightOf_ptrLeftOf_eq_iff hcap, ptrRightOf_ptrLeftOf_val_of_zero⟩
  · exact Finite.injective_iff_bijective.mp (ptrLeftOf_injective cap)
  · exact ⟨fun ⟨hp, hq⟩ => ptrRightOf_eq_of_last_two hcap hp hq, ptrRightOf_not_injective hcap⟩
  · exact ⟨exec_ptrLeft s, exec_ptrRight s⟩

end Sys2Proof.Machine
end

section
/-! PROOFS. `READ` (R90): one write to the current cell, on the state whose queue has lost its head. -/

namespace Sys2Proof.Machine

/-- Settles O12: an empty queue and one with a head are one case, the default head 0 and the tail. -/
theorem readTakesHeadOrZero : Obligations.ReadTakesHeadOrZero := by
  unfold Obligations.ReadTakesHeadOrZero
  obtain ⟨-, hcode, -⟩ := Laws.Encoding.read
  refine ⟨hcode, rfl, rfl, fun s hm => ?_⟩
  obtain ⟨hcell, hcells, hrest⟩ :=
    setCur_result_and_frame (s := { s with input := s.input.tail }) (s.input.headD 0#8) hm
  exact ⟨_, exec_read s, hcell, setCur_input _ _, hcells, hrest⟩

end Sys2Proof.Machine
end

section
/-! PROOFS. `Reset()` (R170): each element of the reset group by its law, the load group by its frame. -/

namespace Sys2Proof.Machine

/-- After the reset operation no entry lists a cell (R11, R170). -/
@[simp] theorem memRead_resetOp (a : Fin Config.cap) (s : State) : memRead a (resetOp s) = 0#8 := rfl

/-- Settles O38: the state the command returns with is `resetOp s`, whatever the fuel. -/
theorem resetWritesResetGroupOnly : Obligations.ResetWritesResetGroupOnly := by
  unfold Obligations.ResetWritesResetGroupOnly
  intro fuel s
  exact ⟨resetOp s, issue_reset fuel s, resetOp_pc s, resetOp_mp_val s, fun a => memRead_resetOp a s,
    resetOp_loopStack s, resetOp_output s, resetOp_program s, resetOp_input s⟩

end Sys2Proof.Machine
end

section
/-! PROOFS. The two levels of encoding (R52, R56 to R58): codes, tokens, the loaded Program as a whole. -/

namespace Sys2Proof

/-! ### Stored codes -/

/-- The decoder undoes the encoder (R52). -/
@[simp] theorem decode_encode (i : Instr) : decode (encode i) = .ok i := by cases i <;> rfl

/-- A code that decodes executes as what it decodes to. -/
theorem decodeEntry_of_decode {c : Code} {i : Instr} (h : decode c = .ok i) : decodeEntry c = i := by
  rw [decodeEntry, h]

/-- A stored opcode executes as itself. -/
@[simp] theorem decodeEntry_encode (i : Instr) : decodeEntry (encode i) = i :=
  decodeEntry_of_decode (decode_encode i)

/-- No opcode has a reserved code (R52). -/
theorem encode_toNat_lt (i : Instr) : (encode i).toNat < 10 := by cases i <;> decide

/-- A reserved code decodes to nothing (R58). -/
theorem decode_of_reserved {c : Code} (h : 10 ≤ c.toNat) : decode c = .error (.reserved c) := by
  unfold decode
  split
  case h_11 => rfl
  all_goals exact absurd h (by decide)

/-- A reserved code executes as `NOP` (R58, D2). -/
theorem decodeEntry_of_reserved {c : Code} (h : 10 ≤ c.toNat) : decodeEntry c = .nop := by
  rw [decodeEntry, decode_of_reserved h]

/-- Settles O2: a code that decodes is below the reserved ones, and there the fetch's reading fixes the code. -/
theorem decodeAndEncodeAgree : Obligations.DecodeAndEncodeAgree := by
  unfold Obligations.DecodeAndEncodeAgree
  refine fun c i => ⟨fun h => code_of_decodeEntry ?_ (decodeEntry_of_decode h), fun h => h ▸ decode_encode i⟩
  by_contra hc
  rw [decode_of_reserved (Nat.le_of_not_lt hc)] at h
  exact nomatch h

/-- Settles O1: the ten words are the codes of the ten opcodes. -/
theorem tableWordsDecode : Obligations.TableWordsDecode := by
  unfold Obligations.TableWordsDecode
  exact ⟨decode_encode .nop, decode_encode .inc, decode_encode .dec, decode_encode .ptrLeft, decode_encode .ptrRight,
    decode_encode .read, decode_encode .write, decode_encode .loopStart, decode_encode .loopEnd, decode_encode .halt⟩

/-! ### Tokens -/

/-- Settles O4: the eight tokens one by one, every other character by the token map's default. -/
theorem tokenMapIsTheEightPairs : Obligations.TokenMapIsTheEightPairs := by
  unfold Obligations.TokenMapIsTheEightPairs
  refine ⟨fun c => ?_, fun b => ?_⟩
  · by_cases hc : c ∈ recognisedTokens
    · simp only [recognisedTokens, List.mem_cons, List.not_mem_nil, or_false] at hc
      rcases hc with rfl | rfl | rfl | rfl | rfl | rfl | rfl | rfl <;> rfl
    · rw [tokenToOpcode_of_not_recognised hc]
      simp only [recognisedTokens, List.mem_cons, List.not_mem_nil, or_false, not_or] at hc
      simp only [hc, if_false]
  · unfold byteToOpcode
    split
    case h_9 h1 h2 h3 h4 h5 h6 h7 h8 =>
      rw [if_neg h1, if_neg h2, if_neg h3, if_neg h4, if_neg h5, if_neg h6, if_neg h7, if_neg h8]
    all_goals rfl

/-! ### The loaded Program -/

/-- Every entry of a loaded Program is an opcode's code. -/
theorem exists_encode_of_mem_assemble {tokens : List Char} {c : Code} (h : c ∈ assemble tokens) :
    ∃ i, c = encode i := by
  rw [assemble, List.mem_append, List.mem_map, List.mem_singleton] at h
  rcases h with ⟨t, -, rfl⟩ | rfl
  · exact ⟨_, rfl⟩
  · exact ⟨_, rfl⟩

/-- A loaded Program satisfies the Program invariant (R16). -/
theorem assemble_wf (tokens : List Char) : Program.wf (assemble tokens) = true := by
  have hends : Program.endsInHalt (assemble tokens) = true := by simp [Program.endsInHalt, assemble]
  have hearly : Program.noEarlyHalt (assemble tokens) = true := by
    rw [Program.noEarlyHalt, assemble, List.dropLast_concat, List.all_map, List.all_eq_true]
    exact fun t _ => bne_iff_ne.mpr fun heq => tokenToOpcode_ne_halt t (encode_injective heq)
  have hcodes : Program.noReserved (assemble tokens) = true := by
    rw [Program.noReserved, List.all_eq_true]
    intro c hc
    obtain ⟨i, rfl⟩ := exists_encode_of_mem_assemble hc
    exact decide_eq_true (encode_toNat_lt i)
  rw [Program.wf, hends, hearly, hcodes]
  rfl

/-- Settles O6: the decoder undoes the encoder entry by entry. -/
theorem loadedProgramDecodesAndIsWellFormed : Obligations.LoadedProgramDecodesAndIsWellFormed := by
  unfold Obligations.LoadedProgramDecodesAndIsWellFormed
  refine fun tokens => ⟨?_, assemble_wf tokens⟩
  simp [assemble]

/-! ### Input text -/

/-- A byte is a character's byte exactly when it is its code point. -/
theorem charToByte_eq_some_iff {c : Char} {b : Byte} : charToByte c = some b ↔ c.toNat = b.toNat := by
  refine ⟨fun h => (toNat_of_charToByte h).symm, fun h => ?_⟩
  rw [charToByte, if_pos (h ▸ b.isLt), h, BitVec.ofNat_toNat, BitVec.setWidth_eq]

end Sys2Proof

namespace Sys2Proof.Machine

/-- Settles O3: decoding rejects the code by name, and its step is the step at a `NOP`. -/
theorem reservedCodesExecuteAsNop : Obligations.ReservedCodesExecuteAsNop := by
  unfold Obligations.ReservedCodesExecuteAsNop
  refine fun c hc => ⟨decode_of_reserved hc, decodeEntry_of_reserved hc, fun s hs => ?_⟩
  rw [step_of_entry hs, decodeEntry_of_reserved hc, exec_nop]
  rfl

/-- A text converts exactly when its first character and the rest do. -/
theorem textToBytes_cons_eq_some_iff {c : Char} {rest : List Char} {bytes : List Byte} :
    textToBytes (c :: rest) = some bytes ↔
      ∃ b bs, charToByte c = some b ∧ textToBytes rest = some bs ∧ b :: bs = bytes := by
  rw [textToBytes]
  cases charToByte c <;> cases textToBytes rest <;> simp

/-- The bytes of a text are the code points of its characters, in order (R126). -/
theorem textToBytes_eq_some_iff {text : List Char} {bytes : List Byte} :
    textToBytes text = some bytes ↔ text.map Char.toNat = bytes.map BitVec.toNat := by
  induction text generalizing bytes with
  | nil => cases bytes <;> simp [textToBytes]
  | cons c rest ih =>
    simp only [textToBytes_cons_eq_some_iff, charToByte_eq_some_iff, ih]
    cases bytes <;> simp

/-- A text with a character above 255 has no bytes (R126, D10). -/
theorem textToBytes_of_wide {text : List Char} (h : ∃ c ∈ text, 255 < c.toNat) : textToBytes text = none := by
  obtain ⟨c, hc, hwide⟩ := h
  rw [Option.eq_none_iff_forall_ne_some]
  intro bytes hbytes
  have hmem : c.toNat ∈ bytes.map BitVec.toNat := textToBytes_eq_some_iff.mp hbytes ▸ List.mem_map_of_mem hc
  obtain ⟨b, -, hb⟩ := List.mem_map.mp hmem
  have hlt := b.isLt
  omega

/-- Settles O42: the conversion by induction on the text; a value above 255 is no byte's. -/
theorem inputTextConvertsByteByByte : Obligations.InputTextConvertsByteByByte := by
  unfold Obligations.InputTextConvertsByteByByte
  refine ⟨fun _ _ => textToBytes_eq_some_iff, fun text s h => ?_⟩
  rw [loadText, textToBytes_of_wide h]

end Sys2Proof.Machine
end

section
/-! PROOFS. Fetch and step (R120 to R122): a step is one instruction on the fetched state or nothing; the frame of
each element of state, of the execute phase first and of the step by it. -/

namespace Sys2Proof.Machine

/-! ### Steps -/

/-- A step at or past the end changes nothing; any other executes the next instruction after the fetch. -/
theorem step_next_cases {s t : State} (h : step s = .next t) :
    (s.progLen ≤ s.pc ∧ nextInstr s = none ∧ t = s) ∨
      ∃ i, s.pc < s.progLen ∧ nextInstr s = some i ∧ exec i (setPc (s.pc + 1) s) = .next t := by
  rcases step_cases s with ⟨hp, hs⟩ | ⟨c, hc, hlt, hs⟩
  · rw [hs] at h
    exact .inl ⟨hp, nextInstr_past_end hp, (Host.Outcome.next.inj h).symm⟩
  · exact .inr ⟨_, hlt, nextInstr_of_entry hc, hs ▸ h⟩

/-- At the code of an opcode the fetch delivers it. -/
theorem nextInstr_of_encode {s : State} {i : Instr} (h : s.program[s.pc]? = some (encode i)) :
    nextInstr s = some i := by
  rw [nextInstr_of_entry h, decodeEntry_encode]

/-- A state that a step leaves as it is stays so for any number of steps. -/
theorem stepTimes_of_step_self {s : State} (h : step s = .next s) (k : Nat) : stepTimes k s = .next s := by
  induction k with
  | zero => rfl
  | succ k ih => rw [stepTimes_succ h, ih]

/-- Any number of steps answers a state (R150). -/
theorem stepTimes_total (k : Nat) (s : State) : ∃ t, stepTimes k s = .next t := by
  induction k generalizing s with
  | zero => exact ⟨s, rfl⟩
  | succ k ih =>
    obtain ⟨u, hu⟩ := step_total s
    rw [stepTimes_succ hu]
    exact ih u

/-- What every step keeps, any number of steps keeps. -/
theorem stepTimes_induct {P : State → Prop} (hstep : ∀ s t, P s → step s = .next t → P t) {k : Nat} {s t : State}
    (hs : P s) (h : stepTimes k s = .next t) : P t := by
  induction k generalizing s with
  | zero => exact Host.Outcome.next.inj h ▸ hs
  | succ k ih =>
    obtain ⟨u, hu, ht⟩ := stepTimes_succ_inv h
    exact ih (hstep s u hs hu) ht

/-- Settles O21: the fetch delivers the decoded opcode. -/
theorem stepRunsTheDecodedEntry : Obligations.StepRunsTheDecodedEntry := by
  unfold Obligations.StepRunsTheDecodedEntry
  intro s c i hc hi
  rw [step_of_entry hc, decodeEntry_of_decode hi]
  rfl

/-- Settles O22: the fetch past the end delivers nothing, so the state is a fixed point. -/
theorem stepWhenHaltedChangesNothing : Obligations.StepWhenHaltedChangesNothing := by
  unfold Obligations.StepWhenHaltedChangesNothing
  exact fun s hp => ⟨step_past_end hp, stepTimes_of_step_self (step_past_end hp)⟩

/-- Settles O23: completion of each instruction, lifted to a step and to any number of steps. -/
theorem noInstructionEverStops : Obligations.NoInstructionEverStops := by
  unfold Obligations.NoInstructionEverStops
  exact ⟨exec_total, step_total, stepTimes_total, nofun⟩

/-! ### The frame of the execute phase -/

/-- Only `INC`, `DEC` and `READ` write the tape (R11). -/
theorem exec_tape {i : Instr} {s t : State} (h : exec i s = .next t) :
    i ≠ .inc → i ≠ .dec → i ≠ .read → t.tape = s.tape := by
  rcases exec_next_cases h with ⟨-, rfl⟩ | ⟨rfl, rfl⟩ | ⟨rfl, rfl⟩ | ⟨-, rfl⟩ | ⟨-, rfl⟩ | ⟨rfl, rfl⟩ | ⟨-, rfl⟩ |
    ⟨-, rfl⟩ | ⟨-, -, rfl⟩ | ⟨-, _, _, -, ⟨-, rfl⟩ | ⟨-, rfl⟩⟩ <;> simp

/-- An instruction leaves the tape as it is or writes the current cell (R38). -/
theorem exec_tape_cases {i : Instr} {s t : State} (h : exec i s = .next t) :
    t.tape = s.tape ∨ ∃ v, t.tape = Memory.write s.tape s.mp.val v := by
  cases i
  case inc => exact .inr ⟨_, (congrArg State.tape (Host.Outcome.next.inj h)).symm⟩
  case dec => exact .inr ⟨_, (congrArg State.tape (Host.Outcome.next.inj h)).symm⟩
  case read =>
    rw [exec_read] at h
    exact .inr ⟨_, (congrArg State.tape (Host.Outcome.next.inj h)).symm⟩
  all_goals exact .inl (exec_tape h nofun nofun nofun)

/-- No instruction changes a cell other than the current one (R38). -/
theorem exec_memRead_of_ne {i : Instr} {s t : State} {a : Fin Config.cap} (hm : Memory.wf s.tape = true)
    (h : exec i s = .next t) (ha : a ≠ s.mp) : memRead a t = memRead a s := by
  unfold memRead
  rcases exec_tape_cases h with ht | ⟨v, ht⟩
  · rw [ht]
  · rw [ht, Memory.read_write hm, if_neg (Fin.val_ne_of_ne ha)]

/-- Every instruction keeps the tape's canonical form. -/
theorem exec_tape_wf {i : Instr} {s t : State} (hm : Memory.wf s.tape = true) (h : exec i s = .next t) :
    Memory.wf t.tape = true := by
  rcases exec_tape_cases h with ht | ⟨v, ht⟩
  · rw [ht, hm]
  · rw [ht, Memory.write_wf hm s.mp.isLt]

/-- Only `PTR_LEFT` and `PTR_RIGHT` write `MP` (R13). -/
theorem exec_mp {i : Instr} {s t : State} (h : exec i s = .next t) :
    i ≠ .ptrLeft → i ≠ .ptrRight → t.mp = s.mp := by
  rcases exec_next_cases h with ⟨-, rfl⟩ | ⟨-, rfl⟩ | ⟨-, rfl⟩ | ⟨rfl, rfl⟩ | ⟨rfl, rfl⟩ | ⟨-, rfl⟩ | ⟨-, rfl⟩ |
    ⟨-, rfl⟩ | ⟨-, -, rfl⟩ | ⟨-, _, _, -, ⟨-, rfl⟩ | ⟨-, rfl⟩⟩ <;> simp

/-- Only `LOOP_START` and `LOOP_END` write the loop stack (R17). -/
theorem exec_loopStack {i : Instr} {s t : State} (h : exec i s = .next t) :
    i ≠ .loopStart → i ≠ .loopEnd → t.loopStack = s.loopStack := by
  rcases exec_next_cases h with ⟨-, rfl⟩ | ⟨-, rfl⟩ | ⟨-, rfl⟩ | ⟨-, rfl⟩ | ⟨-, rfl⟩ | ⟨-, rfl⟩ | ⟨-, rfl⟩ |
    ⟨rfl, rfl⟩ | ⟨rfl, -, rfl⟩ | ⟨rfl, _, _, -, ⟨-, rfl⟩ | ⟨-, rfl⟩⟩ <;> simp

/-- What `LOOP_END` does: nothing on an empty stack, else a branch to the top or its removal (R101). -/
theorem exec_loopEnd_cases {s t : State} (h : exec .loopEnd s = .next t) :
    (s.loopStack = [] ∧ t = s) ∨ ∃ below e, s.loopStack = below ++ [e] ∧
      ((cur s ≠ 0#8 ∧ t = setPc e s) ∨ (cur s = 0#8 ∧ t = { s with loopStack := below })) := by
  simpa using exec_next_cases h

/-- No instruction but `LOOP_END` writes `PC` in its execute phase (R14). -/
theorem exec_pc_of_ne_loopEnd {i : Instr} {s t : State} (h : exec i s = .next t) :
    i ≠ .loopEnd → t.pc = s.pc := by
  rcases exec_next_cases h with ⟨-, rfl⟩ | ⟨-, rfl⟩ | ⟨-, rfl⟩ | ⟨-, rfl⟩ | ⟨-, rfl⟩ | ⟨-, rfl⟩ | ⟨-, rfl⟩ |
    ⟨-, rfl⟩ | ⟨-, -, rfl⟩ | ⟨rfl, _, _, -, ⟨-, rfl⟩ | ⟨-, rfl⟩⟩ <;> simp

/-- The execute phase writes `PC` only where `LOOP_END` branches to the top of the stack, which stays (R14, R101). -/
theorem exec_pc {i : Instr} {s t : State} (h : exec i s = .next t) :
    t.pc = s.pc ∨ (i = .loopEnd ∧ cur s ≠ 0#8 ∧ s.loopStack.getLast? = some t.pc ∧ t.loopStack = s.loopStack) := by
  by_cases hi : i = .loopEnd
  · subst hi
    rcases exec_loopEnd_cases h with ⟨-, rfl⟩ | ⟨below, e, hst, ⟨hc, rfl⟩ | ⟨-, rfl⟩⟩
    · exact .inl rfl
    · exact .inr ⟨rfl, hc, by rw [hst, List.getLast?_concat, setPc_pc], setPc_loopStack e s⟩
    · exact .inl rfl
  · exact .inl (exec_pc_of_ne_loopEnd h hi)

/-- `WRITE` appends the current cell; no other instruction writes the output (R20). -/
theorem exec_output {i : Instr} {s t : State} (h : exec i s = .next t) :
    t.output = if i = .write then s.output ++ [cur s] else s.output := by
  rcases exec_next_cases h with ⟨rfl | rfl, rfl⟩ | ⟨rfl, rfl⟩ | ⟨rfl, rfl⟩ | ⟨rfl, rfl⟩ | ⟨rfl, rfl⟩ | ⟨rfl, rfl⟩ |
    ⟨rfl, rfl⟩ | ⟨rfl, rfl⟩ | ⟨rfl, -, rfl⟩ | ⟨rfl, _, _, -, ⟨-, rfl⟩ | ⟨-, rfl⟩⟩ <;> rfl

/-! ### The frame of a step -/

/-- A step writes `PC` by its fetch, or by a taken `LOOP_END`, which puts the top of the stack there. -/
theorem step_pc {s t : State} (hp : s.pc < s.progLen) (h : step s = .next t) :
    t.pc = s.pc + 1 ∨ (nextInstr s = some .loopEnd ∧ memRead s.mp s ≠ 0#8 ∧ s.loopStack.getLast? = some t.pc ∧
      t.loopStack = s.loopStack) := by
  rcases step_next_cases h with ⟨hpast, -, -⟩ | ⟨i, -, hi, hx⟩
  · exact absurd hpast (Nat.not_le.mpr hp)
  · refine (exec_pc hx).imp_right ?_
    rintro ⟨rfl, hc, htop, hst⟩
    exact ⟨hi, hc, htop, hst⟩

/-- A step writes the output only where it executes `WRITE`. -/
theorem step_output {s t : State} (h : step s = .next t) :
    t.output = if nextInstr s = some .write then s.output ++ [cur s] else s.output := by
  rcases step_next_cases h with ⟨-, hi, rfl⟩ | ⟨i, -, hi, hx⟩
  · rw [hi, if_neg nofun]
  · simp only [exec_output hx, hi, Option.some.injEq, setPc_output, cur_setPc]

/-- The output before a step begins the output after it. -/
theorem step_output_prefix {s t : State} (h : step s = .next t) : s.output <+: t.output := by
  rw [step_output h]
  split
  · exact List.prefix_append _ _
  · exact List.prefix_rfl

/-- The output before any number of steps begins the output after them. -/
theorem stepTimes_output_prefix {k : Nat} {s t : State} (h : stepTimes k s = .next t) : s.output <+: t.output :=
  stepTimes_induct (P := fun u => s.output <+: u.output) (fun _ _ hp hs => hp.trans (step_output_prefix hs))
    List.prefix_rfl h

/-- Settles O24: a halted step has no instruction; any other inherits the execute phase's frame of the tape. -/
theorem stepWritesOnlyTheCurrentCell : Obligations.StepWritesOnlyTheCurrentCell := by
  unfold Obligations.StepWritesOnlyTheCurrentCell
  intro s t hm h
  rcases step_next_cases h with ⟨-, -, rfl⟩ | ⟨i, -, hi, hx⟩
  · exact ⟨fun _ _ => rfl, fun _ _ _ => rfl⟩
  · refine ⟨fun a ha => exec_memRead_of_ne (s := setPc (s.pc + 1) s) hm hx ha, ?_⟩
    simp only [hi, ne_eq, Option.some.injEq]
    exact exec_tape (s := setPc (s.pc + 1) s) hx

/-- Settles O25: each register by the execute phase's frame, `PC` by the fetch or the branch. -/
theorem stepWritesEachRegisterOnlyWhereAllowed : Obligations.StepWritesEachRegisterOnlyWhereAllowed := by
  unfold Obligations.StepWritesEachRegisterOnlyWhereAllowed
  intro s t h
  refine ⟨step_program h, ?_, ?_, fun hp => step_pc hp h⟩ <;>
    rcases step_next_cases h with ⟨-, -, rfl⟩ | ⟨i, -, hi, hx⟩
  · exact fun _ _ => rfl
  · simp only [hi, ne_eq, Option.some.injEq]
    exact exec_mp (s := setPc (s.pc + 1) s) hx
  · exact fun _ _ => rfl
  · simp only [hi, ne_eq, Option.some.injEq]
    exact exec_loopStack (s := setPc (s.pc + 1) s) hx

/-- Settles O26: each stream by what a step writes to it; over many steps by composing suffixes and prefixes. -/
theorem streamsOnlyMoveForward : Obligations.StreamsOnlyMoveForward := by
  unfold Obligations.StreamsOnlyMoveForward
  refine ⟨fun s t h => ⟨fun hi => ?_, fun hi => ?_, fun hi => ?_, fun hi => ?_⟩, fun k s t h => ⟨?_, ?_⟩⟩
  · rw [step_input h, if_neg hi]
  · rw [step_input h, if_pos hi]
  · rw [step_output h, if_neg hi]
  · rw [step_output h, if_pos hi, cur]
  · obtain ⟨taken, hin⟩ := stepTimes_input_suffix h
    exact ⟨taken, hin.symm⟩
  · obtain ⟨written, hout⟩ := stepTimes_output_prefix h
    exact ⟨written, hout.symm⟩

end Sys2Proof.Machine
end

section
/-! PROOFS. `INC` and `DEC` in a row (R74): one write to the current cell of the iterated arithmetic. -/

namespace Sys2Proof.Machine

/-! ### Arithmetic -/

/-- `DEC`'s arithmetic undoes `INC`'s. -/
theorem cellDec_cellInc (v : Byte) : cellDec (cellInc v) = v := BitVec.add_sub_cancel v 1#8

/-- `INC`'s arithmetic undoes `DEC`'s. -/
theorem cellInc_cellDec (v : Byte) : cellInc (cellDec v) = v := BitVec.sub_add_cancel v 1#8

/-- `k` increments as a number. -/
theorem iterate_cellInc_toNat (k : Nat) (v : Byte) : (cellInc^[k] v).toNat = (v.toNat + k) % 256 := by
  induction k with
  | zero => exact (Nat.mod_eq_of_lt v.isLt).symm
  | succ k ih => rw [Function.iterate_succ_apply', cellInc_toNat, ih, Nat.mod_add_mod, Nat.add_assoc]

/-- `k` decrements as a number, with the floor modulus of the integers. -/
theorem iterate_cellDec_toNat (k : Nat) (v : Byte) :
    ((cellDec^[k] v).toNat : Int) = ((v.toNat : Int) - k) % 256 := by
  induction k with
  | zero =>
    have hv := v.isLt
    rw [Function.iterate_zero_apply]
    omega
  | succ k ih =>
    rw [Function.iterate_succ_apply', cellDec_toNat, ih]
    omega

/-- 256 increments are the identity on bytes (C2). -/
theorem iterate_cellInc_256 (v : Byte) : cellInc^[256] v = v := by
  apply BitVec.eq_of_toNat_eq
  rw [iterate_cellInc_toNat, Nat.add_mod_right, Nat.mod_eq_of_lt v.isLt]

/-- 256 decrements are the identity on bytes: they undo 256 increments. -/
theorem iterate_cellDec_256 (v : Byte) : cellDec^[256] v = v := by
  have hundo : cellDec^[256] (cellInc^[256] v) = v := Function.LeftInverse.iterate cellDec_cellInc 256 v
  rwa [iterate_cellInc_256] at hundo

/-! ### The instructions -/

/-- An instruction that applies `f` to the current cell and does nothing else, repeated, iterates `f` on it. -/
theorem execTimes_of_exec_setCur {i : Instr} {f : Byte → Byte} (h : ∀ s, exec i s = .next (setCur (f (cur s)) s))
    (k : Nat) {s : State} (hm : Memory.wf s.tape = true) :
    execTimes i k s = .next (setCur (f^[k] (cur s)) s) := by
  induction k generalizing s with
  | zero => exact congrArg Host.Outcome.next (setCur_cur hm).symm
  | succ k ih => rw [execTimes_succ k (h s), ih (setCur_wf hm), cur_setCur hm, setCur_setCur hm,
      Function.iterate_succ_apply]

/-- Writing `g (f v)` over `f v` in the current cell, where `v` stood, gives back the state if `g` undoes `f`. -/
theorem setCur_undo {f g : Byte → Byte} (hgf : ∀ v, g (f v) = v) {s : State} (hm : Memory.wf s.tape = true) :
    setCur (g (cur (setCur (f (cur s)) s))) (setCur (f (cur s)) s) = s := by
  rw [cur_setCur hm, setCur_setCur hm, hgf, setCur_cur hm]

/-- Settles O18: the arithmetic of the iterates, and the frame of one write to the current cell. -/
theorem repeatedIncAndDecCountModulo256 : Obligations.RepeatedIncAndDecCountModulo256 := by
  unfold Obligations.RepeatedIncAndDecCountModulo256
  refine fun s hm => ⟨fun k => ?_, fun k => ?_, ?_, ?_⟩
  · obtain ⟨hcell, hcells, hrest⟩ := setCur_result_and_frame (cellInc^[k] (cur s)) hm
    refine ⟨_, execTimes_of_exec_setCur exec_inc k hm, ?_, hcells, hrest⟩
    rw [hcell, iterate_cellInc_toNat, cur]
  · obtain ⟨hcell, hcells, hrest⟩ := setCur_result_and_frame (cellDec^[k] (cur s)) hm
    refine ⟨_, execTimes_of_exec_setCur exec_dec k hm, ?_, hcells, hrest⟩
    rw [hcell, iterate_cellDec_toNat, cur]
  · rw [execTimes_of_exec_setCur exec_inc 256 hm, iterate_cellInc_256, setCur_cur hm]
  · rw [execTimes_of_exec_setCur exec_dec 256 hm, iterate_cellDec_256, setCur_cur hm]

/-- Settles O19: the second write puts back what the first replaced. -/
theorem incAndDecAreInverse : Obligations.IncAndDecAreInverse := by
  unfold Obligations.IncAndDecAreInverse
  refine fun s hm => ⟨⟨_, exec_inc s, ?_⟩, ⟨_, exec_dec s, ?_⟩⟩
  · rw [exec_dec, setCur_undo cellDec_cellInc hm]
  · rw [exec_inc, setCur_undo cellInc_cellDec hm]

end Sys2Proof.Machine
end

section
/-! PROOFS. `WRITE` (R91), into the unbounded output and into a finite one (D7). -/

namespace Sys2Proof.Machine

/-- What fits a finite buffer (R5). -/
@[simp] theorem fits_some (c n : Nat) : fits (some c) n = decide (n ≤ c) := rfl

/-- Settles O13: the output of this configuration is unbounded. -/
theorem writeAppendsCurrentCell : Obligations.WriteAppendsCurrentCell := by
  unfold Obligations.WriteAppendsCurrentCell
  exact ⟨decode_encode .write, rfl, rfl, exec_write⟩

/-- Settles O14: whether one more byte fits. -/
theorem writeIntoFullFiniteOutputIsRefused : Obligations.WriteIntoFullFiniteOutputIsRefused := by
  unfold Obligations.WriteIntoFullFiniteOutputIsRefused
  refine fun outCap s => ⟨fun hfull => ?_, fun hroom => ?_⟩
  · rw [writeUnder, outAppend, fits_some, hfull, if_neg (by simp)]
  · rw [writeUnder, outAppend, fits_some, if_pos (decide_eq_true (Nat.succ_le_of_lt hroom)), cur]

end Sys2Proof.Machine
end

section
/-! PROOFS. Loops (R100, R101): the steps at a `LOOP_START` and at a `LOOP_END`, the depth of the stack, one round,
the counted loop, the loop that never ends. -/

namespace Sys2Proof.Machine

/-! ### One step -/

/-- A step at a `LOOP_START` pushes the index after it and goes on there (R100). -/
theorem step_of_loopStart_entry {s : State} (h : s.program[s.pc]? = some (encode .loopStart)) :
    step s = .next { s with pc := s.pc + 1, loopStack := s.loopStack ++ [s.pc + 1] } :=
  step_of_entry h

/-- A step at a `LOOP_END` with an entry and a non-zero cell branches to the top (R101). -/
theorem step_of_loopEnd_entry_branch {s : State} {below : List Nat} {e : Nat}
    (h : s.program[s.pc]? = some (encode .loopEnd)) (hst : s.loopStack = below ++ [e])
    (hc : memRead s.mp s ≠ 0#8) : step s = .next { s with pc := e } :=
  (step_of_entry h).trans (exec_loopEnd_branch (s := setPc (s.pc + 1) s) hst hc)

/-- A step at a `LOOP_END` with an entry and a zero cell removes the top (R101). -/
theorem step_of_loopEnd_entry_pop {s : State} {below : List Nat} {e : Nat}
    (h : s.program[s.pc]? = some (encode .loopEnd)) (hst : s.loopStack = below ++ [e])
    (hc : memRead s.mp s = 0#8) : step s = .next { s with pc := s.pc + 1, loopStack := below } :=
  (step_of_entry h).trans (exec_loopEnd_pop (s := setPc (s.pc + 1) s) hst hc)

/-- Settles O16: the three cases of `LOOP_END`. -/
theorem loopEndBranchesPopsOrDoesNothing : Obligations.LoopEndBranchesPopsOrDoesNothing := by
  unfold Obligations.LoopEndBranchesPopsOrDoesNothing
  exact ⟨decode_encode .loopEnd, rfl, rfl, fun s =>
    ⟨exec_loopEnd_nil, fun _ _ hst => ⟨exec_loopEnd_branch hst, exec_loopEnd_pop hst⟩⟩⟩

/-! ### The depth of the stack (R105) -/

/-- Whether a step pops, by its instruction, its stack and its cell. -/
theorem popsNext_eq_true_iff {s : State} :
    popsNext s = true ↔ nextInstr s = some .loopEnd ∧ s.loopStack ≠ [] ∧ cur s = 0#8 := by
  simp [popsNext, curNonZero, and_assoc]

/-- A step changes the depth of the stack by its push or its pop. -/
theorem step_loopStack_length {s t : State} (h : step s = .next t) :
    t.loopStack.length + (if popsNext s then 1 else 0) =
      s.loopStack.length + (if nextInstr s = some .loopStart then 1 else 0) := by
  simp only [popsNext_eq_true_iff]
  rcases step_next_cases h with ⟨-, hi, rfl⟩ | ⟨i, -, hi, hx⟩
  · simp [hi]
  · by_cases hend : i = .loopEnd
    · subst hend
      rcases exec_loopEnd_cases hx with ⟨(hst : s.loopStack = []), rfl⟩ |
        ⟨below, e, (hst : s.loopStack = below ++ [e]), ⟨(hc : cur s ≠ 0#8), rfl⟩ | ⟨(hc : cur s = 0#8), rfl⟩⟩
      · simp [hi, hst]
      · simp [hi, hc]
      · simp [hi, hst, hc]
    · by_cases hstart : i = .loopStart
      · subst hstart
        rw [exec_loopStart] at hx
        simp [hi, ← Host.Outcome.next.inj hx]
      · simp [hi, hend, hstart, exec_loopStack hx hstart hend]

/-- Settles O31: the balance of one step, added up. -/
theorem loopStackDepthCountsPushesAndPops : Obligations.LoopStackDepthCountsPushesAndPops := by
  unfold Obligations.LoopStackDepthCountsPushesAndPops
  intro k
  induction k with
  | zero =>
    intro s t h
    rw [← Host.Outcome.next.inj h, popsIn, pushesIn]
  | succ k ih =>
    intro s t h
    obtain ⟨u, hs, hu⟩ := stepTimes_succ_inv h
    have hone := step_loopStack_length hs
    have hrest := ih u t hu
    simp only [popsIn, pushesIn, hs]
    omega

/-! ### Rounds -/

/-- Settles O34: the push, the body, the test. -/
theorem loopBodyRunsBeforeTheFirstTest : Obligations.LoopBodyRunsBeforeTheFirstTest := by
  unfold Obligations.LoopBodyRunsBeforeTheFirstTest
  intro s u b hstart hbody hend hst
  have hround : stepTimes (1 + b) s = .next u := by
    rw [Nat.add_comm, stepTimes_succ (step_of_loopStart_entry hstart), hbody]
  refine ⟨fun hc => ?_, fun hc => ?_⟩
  · rw [stepTimes_add hround, stepTimes_succ (step_of_loopEnd_entry_branch hend hst hc), stepTimes_zero]
  · rw [stepTimes_add hround, stepTimes_succ (step_of_loopEnd_entry_pop hend hst hc), stepTimes_zero]

/-- What the do-while law fixes of a state: Program, `PC`, `MP`, the stack, a canonical tape, the test cell. -/
structure LoopPoint (p : List Code) (pc : Nat) (m : Fin Config.cap) (stack : List Nat) (v : Byte) (s : State) :
    Prop where
  program : s.program = p
  pc : s.pc = pc
  mp : s.mp = m
  loopStack : s.loopStack = stack
  tape : Memory.wf s.tape = true
  cell : memRead m s = v

/-- The body from `i + 1` to the `LOOP_END` at `e`: always `b` steps, which take 1 from the test cell. -/
def BodyDecrements (p : List Code) (i e b : Nat) (m : Fin Config.cap) (below : List Nat) : Prop :=
  ∀ (v : Byte) (t : State), LoopPoint p (i + 1) m (below ++ [i + 1]) v t →
    ∃ u, stepTimes b t = .next u ∧ LoopPoint p e m (below ++ [i + 1]) (v - 1#8) u

/-- The test at `e` with a non-zero cell goes back to the body. -/
theorem LoopPoint.step_branch {p : List Code} {e j : Nat} {m : Fin Config.cap} {below : List Nat} {v : Byte}
    {s : State} (hend : p[e]? = some (encode .loopEnd)) (h : LoopPoint p e m (below ++ [j]) v s) (hv : v ≠ 0#8) :
    ∃ t, step s = .next t ∧ LoopPoint p j m (below ++ [j]) v t := by
  obtain ⟨rfl, rfl, rfl, hst, htape, rfl⟩ := h
  exact ⟨_, step_of_loopEnd_entry_branch hend hst hv, rfl, rfl, rfl, hst, htape, rfl⟩

/-- The test at `e` with a zero cell leaves the loop. -/
theorem LoopPoint.step_pop {p : List Code} {e j : Nat} {m : Fin Config.cap} {below : List Nat}
    {s : State} (hend : p[e]? = some (encode .loopEnd)) (h : LoopPoint p e m (below ++ [j]) 0#8 s) :
    ∃ t, step s = .next t ∧ LoopPoint p (e + 1) m below 0#8 t := by
  obtain ⟨rfl, rfl, rfl, hst, htape, hc⟩ := h
  exact ⟨_, step_of_loopEnd_entry_pop hend hst hc, rfl, rfl, rfl, rfl, htape, hc⟩

/-- From the start of the body with the cell at `n + 1` modulo 256, `n + 1` rounds leave the loop. -/
theorem BodyDecrements.rounds {p : List Code} {i e b : Nat} {m : Fin Config.cap} {below : List Nat}
    (hend : p[e]? = some (encode .loopEnd)) (hbody : BodyDecrements p i e b m below) {n : Nat} (hn : n < 256)
    {s : State} (hs : LoopPoint p (i + 1) m (below ++ [i + 1]) (BitVec.ofNat 8 (n + 1)) s) :
    ∃ t, stepTimes ((n + 1) * (b + 1)) s = .next t ∧ LoopPoint p (e + 1) m below 0#8 t := by
  induction n generalizing s with
  | zero =>
    obtain ⟨u, hu, hpoint⟩ := hbody _ s hs
    obtain ⟨t, ht, hexit⟩ := hpoint.step_pop hend
    refine ⟨t, ?_, hexit⟩
    rw [Nat.zero_add, Nat.one_mul, stepTimes_add hu, stepTimes_succ ht, stepTimes_zero]
  | succ n ih =>
    obtain ⟨u, hu, hpoint⟩ := hbody _ s hs
    have hcell : BitVec.ofNat 8 (n + 1 + 1) - 1#8 = BitVec.ofNat 8 (n + 1) := by bv_omega
    have hne : BitVec.ofNat 8 (n + 1) ≠ 0#8 := by bv_omega
    rw [hcell] at hpoint
    obtain ⟨w, hw, hback⟩ := hpoint.step_branch hend hne
    obtain ⟨t, ht, hexit⟩ := ih (by omega) hback
    refine ⟨t, ?_, hexit⟩
    rw [Nat.succ_mul, Nat.add_comm, Nat.add_assoc, stepTimes_add hu, Nat.add_comm, stepTimes_succ hw, ht]

/-- How often a body that takes 1 from the test cell runs, from the value it holds: 256 times from 0. -/
theorem exists_rounds (v : Byte) :
    ∃ n < 256, (if v = 0#8 then 256 else v.toNat) = n + 1 ∧ BitVec.ofNat 8 (n + 1) = v := by
  have hv := v.isLt
  split
  · next h => exact ⟨255, by decide, rfl, h.symm⟩
  · next h =>
    have hpos : 0 < v.toNat := Nat.pos_of_ne_zero fun h0 => h (BitVec.eq_of_toNat_eq h0)
    refine ⟨v.toNat - 1, by omega, by omega, ?_⟩
    rw [Nat.sub_add_cancel hpos, BitVec.ofNat_toNat, BitVec.setWidth_eq]

/-- Settles O35: the push, then the rounds, by induction on their number. -/
theorem doWhileLoopRunsBodyNTimes : Obligations.DoWhileLoopRunsBodyNTimes := by
  unfold Obligations.DoWhileLoopRunsBodyNTimes
  intro p i e b m below hstart hend hbody s hprog hpc hmp hst htape
  have hdec : BodyDecrements p i e b m below := by
    rintro v t ⟨htp, htpc, htm, hts, htw, rfl⟩
    obtain ⟨u, hu, hup, hupc, hum, hus, huw, huc⟩ := hbody t htp htpc htm hts htw
    exact ⟨u, hu, hup, hupc, hum, hus, huw, huc⟩
  obtain ⟨n, hn, hrounds, hcell⟩ := exists_rounds (memRead m s)
  subst hprog hpc hmp hst
  obtain ⟨t, ht, hexit⟩ := hdec.rounds hend hn
    (s := { s with pc := s.pc + 1, loopStack := s.loopStack ++ [s.pc + 1] })
    ⟨rfl, rfl, rfl, rfl, htape, hcell.symm⟩
  obtain ⟨htp, htpc, htm, hts, -, htc⟩ := hexit
  refine ⟨t, ?_, htp, htpc, htm, hts, htc⟩
  rw [hrounds, Nat.add_comm, stepTimes_succ (step_of_loopStart_entry hstart), ht]

/-! ### The loop that never ends (R106) -/

/-- A state before the end that its step, no `HALT`, leaves as it is keeps `run`'s loop going for any fuel. -/
theorem runLoop_of_step_self {s : State} (hp : s.pc < s.progLen) (hs : step s = .next s)
    (hi : nextInstr s ≠ some .halt) (fuel : Nat) : runLoop fuel s = .unfinished s := by
  induction fuel with
  | zero => rfl
  | succ fuel ih => rw [runLoop_step fuel hp hs, if_neg hi, ih]

/-- Settles O36: the branch goes to the `LOOP_END` itself, so the step answers the state it found. -/
theorem emptyLoopOnNonZeroCellNeverEnds : Obligations.EmptyLoopOnNonZeroCellNeverEnds := by
  unfold Obligations.EmptyLoopOnNonZeroCellNeverEnds
  intro s below hend hst hc
  have hself : step s = .next s := step_of_loopEnd_entry_branch hend hst hc
  have hp : s.pc < s.progLen := (List.getElem?_eq_some_iff.mp hend).1
  have hi : nextInstr s = some .loopEnd := nextInstr_of_encode hend
  exact ⟨stepTimes_of_step_self hself, runLoop_of_step_self hp hself (by rw [hi]; nofun)⟩

end Sys2Proof.Machine
end

section
/-! PROOFS. The global invariant (R27): where the entries of a well-formed Program lead, what each write of the state
keeps of the invariant, every instruction and step by them; what the invariant says of the stack, a branch, the end. -/

namespace Sys2Proof

/-- In a well-formed Program an entry that is no `HALT` has an entry after it (R16). -/
theorem Program.succ_lt_of_ne_halt {p : List Code} (h : Program.wf p = true) {k : Nat} {c : Code}
    (hk : p[k]? = some c) (hc : c ≠ encode .halt) : k + 1 < p.length := by
  have hlt : k < p.length := (List.getElem?_eq_some_iff.mp hk).1
  have hlast : k ≠ p.length - 1 := by
    rw [ne_eq, ← Program.halt_iff_last h hlt, hk, Option.some.injEq]
    exact hc
  omega

/-- A well-formed Program holds fewer codes of any opcode but `HALT` than entries: the last is the `HALT` (R16). -/
theorem Program.count_lt_length {p : List Code} (h : Program.wf p = true) {i : Instr} (hi : i ≠ .halt) :
    p.count (encode i) < p.length := by
  rw [List.count_lt_length_iff]
  exact ⟨encode .halt, List.mem_of_getLast? (Program.getLast_of_wf h), fun heq => hi (encode_injective heq).symm⟩

/-- Strictly increasing indices, each one past an entry `c`, are no more than there are entries `c`. -/
theorem length_le_count_of_increasing {p : List Code} {c : Code} {es : List Nat} (hinc : es.Pairwise (· < ·))
    (hes : ∀ e ∈ es, 1 ≤ e ∧ p[e - 1]? = some c) : es.length ≤ p.count c := by
  have hnodup : es.Nodup := hinc.imp Nat.ne_of_lt
  have hsub : es ⊆ p.idxsOf c 1 := by
    intro e he
    obtain ⟨hpos, hentry⟩ := hes e he
    obtain ⟨hlt, heq⟩ := List.getElem?_eq_some_iff.mp hentry
    exact List.mem_idxsOf_iff_getElem_sub_pos.mpr ⟨hpos, hlt, beq_iff_eq.mpr heq⟩
  calc es.length ≤ (p.idxsOf c 1).length := (List.subperm_of_subset hnodup hsub).length_le
    _ = p.count c := List.length_idxsOf

end Sys2Proof

namespace Sys2Proof.Machine

/-- The entry at `PC`, in a state whose Program is well formed, is the code of the instruction fetched. -/
theorem entry_of_nextInstr {s : State} {i : Instr} (h : Program.wf s.program = true) (hi : nextInstr s = some i) :
    s.program[s.pc]? = some (encode i) := by
  rw [nextInstr, fetch_eq, Option.map_map, Option.map_eq_some_iff] at hi
  obtain ⟨c, hc, hdec⟩ := hi
  rw [hc, code_of_decodeEntry (Program.code_lt_of_wf h hc) hdec]

/-! ### What keeps the invariant -/

/-- The invariant speaks of the tape's form, the Program, `PC` and the stack alone. -/
theorem inv_of_control_eq {s t : State} (h : GlobalInv s) (htape : Memory.wf t.tape = true)
    (hprog : t.program = s.program) (hpc : t.pc = s.pc) (hst : t.loopStack = s.loopStack) : GlobalInv t := by
  obtain ⟨-, hwf, hle, hstart, hlt, hlepc, hincr⟩ := h
  unfold State.progLen at *
  rw [← hprog] at hwf hle hstart hlt
  rw [← hpc] at hle hlepc
  rw [← hst] at hstart hlt hlepc hincr
  exact ⟨htape, hwf, hle, hstart, hlt, hlepc, hincr⟩

/-- `PC` may go wherever no entry of the stack is above it, up to the end of the Program. -/
theorem inv_setPc {s : State} {n : Nat} (h : GlobalInv s) (hn : n ≤ s.progLen)
    (hst : ∀ e ∈ s.loopStack, e ≤ n) : GlobalInv (setPc n s) :=
  ⟨h.tape, h.program, hn, h.entry_start, h.entry_lt, hst, h.increasing⟩

/-- A fetch before the end keeps the invariant (R120). -/
theorem inv_fetch {s : State} (h : GlobalInv s) (hp : s.pc < s.progLen) :
    GlobalInv (setPc (s.pc + 1) s) :=
  inv_setPc h hp fun e he => Nat.le_succ_of_le (h.entry_le_pc e he)

/-- A branch to the top of the stack keeps the invariant: every entry is below the top or the top itself (R18(c)). -/
theorem inv_branch {s : State} {below : List Nat} {e : Nat} (h : GlobalInv s)
    (hst : s.loopStack = below ++ [e]) : GlobalInv (setPc e s) := by
  have htop : e ∈ s.loopStack := by simp [hst]
  have hincr := h.increasing
  rw [hst, List.pairwise_append] at hincr
  obtain ⟨-, -, hbelow⟩ := hincr
  refine inv_setPc h (Nat.le_of_lt (h.entry_lt e htop)) fun d hd => ?_
  rw [hst, List.mem_append, List.mem_singleton] at hd
  rcases hd with hd | rfl
  · exact Nat.le_of_lt (hbelow d hd e (List.mem_singleton_self e))
  · exact le_rfl

/-- Removing the top of the stack keeps the invariant. -/
theorem inv_pop {s : State} {below : List Nat} {e : Nat} (h : GlobalInv s)
    (hst : s.loopStack = below ++ [e]) : GlobalInv { s with loopStack := below } := by
  have hsub : below.Sublist s.loopStack := hst ▸ List.sublist_append_left below [e]
  exact ⟨h.tape, h.program, h.pc_le, fun d hd => h.entry_start d (hsub.subset hd),
    fun d hd => h.entry_lt d (hsub.subset hd), fun d hd => h.entry_le_pc d (hsub.subset hd), h.increasing.sublist hsub⟩

/-- After the fetch of a `LOOP_START` the push keeps the invariant: every entry is at most the `LOOP_START`'s index
(R18(b)), and a `HALT` still follows it (R16). -/
theorem inv_push_fetched {s : State} (h : GlobalInv s)
    (hstart : s.program[s.pc]? = some (encode .loopStart)) :
    GlobalInv (push (s.pc + 1) (setPc (s.pc + 1) s)) := by
  have hlt : s.pc + 1 < s.progLen := Program.succ_lt_of_ne_halt h.program hstart (by decide)
  refine ⟨h.tape, h.program, Nat.le_of_lt hlt, ?_, ?_, ?_, ?_⟩ <;>
    simp only [push_loopStack, setPc_loopStack, List.mem_append, List.mem_singleton, List.pairwise_append]
  · rintro d (hd | rfl)
    · exact h.entry_start d hd
    · exact ⟨Nat.le_add_left 1 s.pc, hstart⟩
  · rintro d (hd | rfl)
    · exact h.entry_lt d hd
    · exact hlt
  · rintro d (hd | rfl)
    · exact Nat.le_succ_of_le (h.entry_le_pc d hd)
    · exact le_rfl
  · refine ⟨h.increasing, List.pairwise_singleton _ _, ?_⟩
    rintro d hd _ rfl
    exact Nat.lt_succ_of_le (h.entry_le_pc d hd)

/-- Every instruction but `LOOP_START`, whose push needs its own fetch, keeps the invariant. -/
theorem exec_keeps_inv {i : Instr} {s t : State} (h : GlobalInv s) (hi : i ≠ .loopStart) (hx : exec i s = .next t) :
    GlobalInv t := by
  by_cases hend : i = .loopEnd
  · subst hend
    rcases exec_loopEnd_cases hx with ⟨-, rfl⟩ | ⟨below, e, hst, ⟨-, rfl⟩ | ⟨-, rfl⟩⟩
    · exact h
    · exact inv_branch h hst
    · exact inv_pop h hst
  · exact inv_of_control_eq h (exec_tape_wf h.tape hx) (exec_program hx) (exec_pc_of_ne_loopEnd hx hend)
      (exec_loopStack hx hi hend)

/-- Every step keeps the invariant. -/
theorem step_keeps_inv {s t : State} (h : GlobalInv s) (hs : step s = .next t) : GlobalInv t := by
  rcases step_next_cases hs with ⟨-, -, rfl⟩ | ⟨i, hp, hi, hx⟩
  · exact h
  · by_cases hstart : i = .loopStart
    · subst hstart
      rw [exec_loopStart] at hx
      exact Host.Outcome.next.inj hx ▸ inv_push_fetched h (entry_of_nextInstr h.program hi)
    · exact exec_keeps_inv (inv_fetch h hp) hstart hx

/-- Any number of steps keeps the invariant. -/
theorem stepTimes_keeps_inv {k : Nat} {s t : State} (h : GlobalInv s) (hs : stepTimes k s = .next t) : GlobalInv t :=
  stepTimes_induct (fun _ _ => step_keeps_inv) h hs

/-- Settles O28: the fetch, then the instruction, a `LOOP_START` with its fetch. -/
theorem everyStepKeepsTheInvariant : Obligations.EveryStepKeepsTheInvariant := by
  unfold Obligations.EveryStepKeepsTheInvariant
  exact fun _ _ => step_keeps_inv

/-- Settles O27: the one `HALT` is a well-formed Program, and a reset state with one has the invariant. -/
theorem invariantAtPowerOn : Obligations.InvariantAtPowerOn :=
  resetOp_inv (s := State.reset) (assemble_wf [])

/-! ### What the invariant says -/

/-- `halted` is `PC >= L` (R26). -/
theorem halted_eq_true_iff {s : State} : s.halted = true ↔ s.progLen ≤ s.pc := decide_eq_true_iff

/-- A machine that has not halted stands before the end. -/
theorem halted_eq_false_iff {s : State} : s.halted = false ↔ s.pc < s.progLen := by
  rw [State.halted, decide_eq_false_iff_not, Nat.not_le]

/-- Under the invariant `halted` is `PC = L` (R15, R26). -/
theorem halted_iff_of_inv {s : State} (h : GlobalInv s) : s.halted = true ↔ s.pc = s.progLen :=
  halted_eq_true_iff.trans ⟨fun hp => Nat.le_antisymm h.pc_le hp, Nat.le_of_eq ∘ Eq.symm⟩

/-- In a well-formed Program a step at the `HALT` sets `PC` to `L` and changes nothing else (R115). -/
theorem step_of_halt_entry {s : State} (hwf : Program.wf s.program = true)
    (hhalt : s.program[s.pc]? = some (encode .halt)) : step s = .next { s with pc := s.progLen } := by
  have hlt : s.pc < s.program.length := (List.getElem?_eq_some_iff.mp hhalt).1
  have hlast : s.pc = s.program.length - 1 := (Program.halt_iff_last hwf hlt).mp hhalt
  have hnext : s.pc + 1 = s.progLen := by
    rw [State.progLen]
    omega
  rw [step_of_entry hhalt, decodeEntry_encode, exec_halt, hnext]
  rfl

/-- From before the end exactly the step that fetches the `HALT` halts: the others advance to an entry, or branch to
one (R26). -/
theorem step_halted_iff {s t : State} (h : GlobalInv s) (hp : s.pc < s.progLen) (hs : step s = .next t) :
    t.halted = true ↔ nextInstr s = some .halt := by
  have hlen : t.progLen = s.progLen := congrArg List.length (step_program hs)
  rw [halted_eq_true_iff, hlen]
  constructor
  · intro hend
    obtain ⟨c, hc⟩ : ∃ c, s.program[s.pc]? = some c := ⟨_, List.getElem?_eq_getElem hp⟩
    by_contra hi
    have hne : c ≠ encode .halt := by
      rintro rfl
      exact hi (nextInstr_of_encode hc)
    have hsucc : s.pc + 1 < s.progLen := Program.succ_lt_of_ne_halt h.program hc hne
    rcases step_pc hp hs with hpc | ⟨-, -, htop, -⟩
    · omega
    · have hlt := h.entry_lt _ (List.mem_of_getLast? htop)
      omega
  · intro hi
    rw [step_of_halt_entry h.program (entry_of_nextInstr h.program hi)] at hs
    exact Nat.le_of_eq (congrArg State.pc (Host.Outcome.next.inj hs))

/-- Settles O32: `PC` never exceeds `L`; only the fetch of the last entry takes it there. -/
theorem haltedExactlyAfterFetchingHalt : Obligations.HaltedExactlyAfterFetchingHalt := by
  unfold Obligations.HaltedExactlyAfterFetchingHalt
  exact fun s t h hs => ⟨halted_iff_of_inv h, fun hp => step_halted_iff h (halted_eq_false_iff.mp hp) hs⟩

/-- Settles O17: the `HALT` is the last entry, so its fetch takes `PC` to `L`, where steps change nothing. -/
theorem haltEndsTheRun : Obligations.HaltEndsTheRun := by
  unfold Obligations.HaltEndsTheRun
  refine ⟨decode_encode .halt, exec_halt, fun s hwf hhalt => ?_⟩
  have hstep := step_of_halt_entry hwf hhalt
  refine ⟨hstep, fun k => ?_⟩
  rw [stepTimes_succ hstep]
  exact stepTimes_of_step_self (step_past_end (Nat.le_refl s.progLen)) k

/-- Settles O15: the push of the fetched `PC`; the `LOOP_START` is not the last entry. -/
theorem loopStartPushesNextIndex : Obligations.LoopStartPushesNextIndex := by
  unfold Obligations.LoopStartPushesNextIndex
  refine ⟨decode_encode .loopStart, rfl, rfl, exec_loopStart, fun s hstart =>
    ⟨step_of_loopStart_entry hstart, fun hwf => ⟨Nat.le_add_left 1 s.pc, ?_⟩⟩⟩
  exact Nat.le_sub_one_of_lt (Program.succ_lt_of_ne_halt hwf hstart (by decide))

/-- Settles O30: the entries are increasing and each follows a `LOOP_START` of its own. -/
theorem loopStackIsBoundedByLoopStarts : Obligations.LoopStackIsBoundedByLoopStarts := by
  unfold Obligations.LoopStackIsBoundedByLoopStarts
  exact fun s h => ⟨length_le_count_of_increasing h.increasing h.entry_start,
    Nat.le_sub_one_of_lt (Program.count_lt_length h.program nofun)⟩

/-- Settles O33: the branch goes to the top of the stack, of which the invariant says all that is claimed. -/
theorem takenBranchGoesBackwards : Obligations.TakenBranchGoesBackwards := by
  unfold Obligations.TakenBranchGoesBackwards
  intro s t h hs hi hne hc
  obtain ⟨below, e, hst⟩ := List.eq_nil_or_concat' s.loopStack |>.resolve_left hne
  rw [step_of_loopEnd_entry_branch (entry_of_nextInstr h.program hi) hst hc] at hs
  rw [← Host.Outcome.next.inj hs]
  have htop : e ∈ s.loopStack := by simp [hst]
  obtain ⟨hpos, hstart⟩ := h.entry_start e htop
  exact ⟨hpos, h.entry_le_pc e htop, Nat.le_sub_one_of_lt (h.entry_lt e htop), hstart⟩

end Sys2Proof.Machine
end

section
/-! PROOFS. The commands and the query (50_engine_control): `run` as steps until the first halted state, what a command
leaves, the loads, the reset, the snapshot. -/

namespace Sys2Proof.Machine

/-! ### `run` as steps -/

/-- However far `run`'s loop gets, it is where some number of steps leads. -/
theorem stepTimes_runLoop_state (fuel : Nat) (s : State) : ∃ k, stepTimes k s = .next (runLoop fuel s).state := by
  induction fuel generalizing s with
  | zero => exact ⟨0, rfl⟩
  | succ fuel ih =>
    by_cases hp : s.progLen ≤ s.pc
    · rw [runLoop_past_end fuel hp]
      exact ⟨0, rfl⟩
    · obtain ⟨u, hs⟩ := step_total s
      rw [runLoop_step fuel (Nat.lt_of_not_le hp) hs]
      split
      · exact ⟨1, stepTimes_succ hs⟩
      · obtain ⟨k, hk⟩ := ih u
        exact ⟨k + 1, (stepTimes_succ hs).trans hk⟩

/-- `k` steps lead from `s` to `t`, which is the first halted state on the way. -/
def FirstHaltedAfter (k : Nat) (s t : State) : Prop :=
  stepTimes k s = .next t ∧ t.halted = true ∧
    ∀ j, j < k → ∀ u, stepTimes j s = .next u → u.halted = false

/-- A halted state is the first on its own way, and no later one is. -/
theorem firstHaltedAfter_of_halted {k : Nat} {s t : State} (h : s.halted = true) :
    FirstHaltedAfter k s t ↔ k = 0 ∧ s = t := by
  constructor
  · rintro ⟨hsteps, -, hbefore⟩
    have hk : k = 0 := Nat.eq_zero_of_not_pos fun hpos => by simp [hbefore 0 hpos s rfl] at h
    subst hk
    exact ⟨rfl, Host.Outcome.next.inj hsteps⟩
  · rintro ⟨rfl, rfl⟩
    exact ⟨rfl, h, fun _ hj => absurd hj (Nat.not_lt_zero _)⟩

/-- No step leads from a state that is not halted to a halted one. -/
theorem not_firstHaltedAfter_zero {s t : State} (h : s.halted = false) : ¬ FirstHaltedAfter 0 s t := by
  rintro ⟨hsteps, ht, -⟩
  rw [← Host.Outcome.next.inj hsteps, h] at ht
  exact nomatch ht

/-- From a state that is not halted the first halted one is that of the next state, one step further. -/
theorem firstHaltedAfter_succ {k : Nat} {s u t : State} (h : s.halted = false) (hs : step s = .next u) :
    FirstHaltedAfter (k + 1) s t ↔ FirstHaltedAfter k u t := by
  unfold FirstHaltedAfter
  rw [stepTimes_succ hs]
  refine and_congr_right fun _ => and_congr_right fun _ => ⟨fun hbefore j hj w hw => ?_, fun hbefore j hj w hw => ?_⟩
  · exact hbefore (j + 1) (Nat.succ_lt_succ hj) w ((stepTimes_succ hs).trans hw)
  · cases j with
    | zero => exact Host.Outcome.next.inj hw ▸ h
    | succ j => exact hbefore j (Nat.lt_of_succ_lt_succ hj) w (stepTimes_succ hs ▸ hw)

/-- Before the end a turn of the loop is a step, and returns where the step halts. -/
theorem runLoop_succ_of_inv {s u : State} (fuel : Nat) (h : GlobalInv s) (hp : s.halted = false)
    (hs : step s = .next u) :
    runLoop (fuel + 1) s = if u.halted = true then .returned u else runLoop fuel u := by
  have hlt := halted_eq_false_iff.mp hp
  simp only [runLoop_step fuel hlt hs, step_halted_iff h hlt hs]

/-- From a state that is not halted `run`'s loop returns the first halted state, if the fuel reaches it. -/
theorem runLoop_eq_returned_iff {fuel : Nat} {s t : State} (h : GlobalInv s) (hp : s.halted = false) :
    runLoop fuel s = .returned t ↔ ∃ k ≤ fuel, FirstHaltedAfter k s t := by
  induction fuel generalizing s with
  | zero =>
    refine ⟨nofun, ?_⟩
    rintro ⟨k, hk, hfirst⟩
    obtain rfl : k = 0 := Nat.le_zero.mp hk
    exact absurd hfirst (not_firstHaltedAfter_zero hp)
  | succ fuel ih =>
    obtain ⟨u, hs⟩ := step_total s
    have hshift : (∃ k ≤ fuel + 1, FirstHaltedAfter k s t) ↔ ∃ k ≤ fuel, FirstHaltedAfter k u t := by
      constructor
      · rintro ⟨k | k, hk, hfirst⟩
        · exact absurd hfirst (not_firstHaltedAfter_zero hp)
        · exact ⟨k, Nat.le_of_succ_le_succ hk, (firstHaltedAfter_succ hp hs).mp hfirst⟩
      · rintro ⟨k, hk, hfirst⟩
        exact ⟨k + 1, Nat.succ_le_succ hk, (firstHaltedAfter_succ hp hs).mpr hfirst⟩
    rw [runLoop_succ_of_inv fuel h hp hs, hshift]
    by_cases hu : u.halted = true
    · rw [if_pos hu]
      simp only [firstHaltedAfter_of_halted hu, Response.returned.injEq]
      exact ⟨fun heq => ⟨0, Nat.zero_le _, rfl, heq⟩, fun ⟨_, _, _, heq⟩ => heq⟩
    · rw [if_neg hu]
      exact ih (step_keeps_inv h hs) (Bool.eq_false_of_not_eq_true hu)

/-- After a reset a well-formed Program stands before its end. -/
theorem resetOp_not_halted {s : State} (h : Program.wf s.program = true) : (resetOp s).halted = false :=
  halted_eq_false_iff.mpr (Program.length_pos_of_wf h)

/-- `run` returns the first halted state after the reset, if the fuel reaches it (R123; D15). -/
theorem run_eq_returned_iff {fuel : Nat} {s t : State} (h : Program.wf s.program = true) :
    run fuel s = .returned t ↔ ∃ k ≤ fuel, FirstHaltedAfter k (resetOp s) t :=
  runLoop_eq_returned_iff (resetOp_inv h) (resetOp_not_halted h)

/-- Settles O44: the loop's turns are steps, by induction on the fuel, and it returns where a step halts. -/
theorem runIsResetThenStepsUntilHalted : Obligations.RunIsResetThenStepsUntilHalted := by
  unfold Obligations.RunIsResetThenStepsUntilHalted
  exact fun _ _ _ h => run_eq_returned_iff h

/-- Settles O45: the first halted state is reached by steps, which keep the Program and the invariant, and more fuel
reaches it too. -/
theorem runEndsHaltedWhateverTheFuel : Obligations.RunEndsHaltedWhateverTheFuel := by
  unfold Obligations.RunEndsHaltedWhateverTheFuel
  intro fuel s t h hrun
  obtain ⟨k, hk, hfirst⟩ := (run_eq_returned_iff h).mp hrun
  have hmore (more : Nat) (hle : fuel ≤ more) : run more s = .returned t :=
    (run_eq_returned_iff h).mpr ⟨k, hk.trans hle, hfirst⟩
  obtain ⟨hsteps, hhalted, -⟩ := hfirst
  have hinv : GlobalInv t := stepTimes_keeps_inv (resetOp_inv h) hsteps
  exact ⟨(halted_iff_of_inv hinv).mp hhalted, hhalted,
    (stepTimes_program hsteps).trans (resetOp_program s), hinv, hmore⟩

/-! ### The invariant under commands -/

/-- `run` keeps the invariant, returned or unfinished. -/
theorem runLoop_keeps_inv {s : State} (fuel : Nat) (h : GlobalInv s) : GlobalInv (runLoop fuel s).state := by
  obtain ⟨k, hk⟩ := stepTimes_runLoop_state fuel s
  exact stepTimes_keeps_inv h hk

/-- Settles O29: a load or a reset leaves a reset state of a well-formed Program, a step or a run a state that steps
lead to. -/
theorem everyCommandKeepsTheInvariant : Obligations.EveryCommandKeepsTheInvariant := by
  unfold Obligations.EveryCommandKeepsTheInvariant
  intro fuel c s h
  cases c with
  | loadProgram tokens => exact resetOp_inv (s := { s with program := assemble tokens }) (assemble_wf tokens)
  | loadInput bytes => exact resetOp_inv (s := { s with input := bytes }) h.program
  | reset => exact resetOp_inv h.program
  | step =>
    obtain ⟨u, hu⟩ := step_total s
    rw [issue_step_of_next fuel hu]
    exact step_keeps_inv h hu
  | run => exact runLoop_keeps_inv fuel (resetOp_inv h.program)

/-! ### Reset and loads -/

/-- The reset state is a function of `Program` and `InputQueue` (R173). -/
theorem resetOp_eq_of_load_group_eq {s s' : State} (hprog : s.program = s'.program) (hin : s.input = s'.input) :
    resetOp s = resetOp s' := by
  simp only [resetOp, hprog, hin]

/-- Settles O39: the reset keeps what it depends on. -/
theorem resetIsIdempotent : Obligations.ResetIsIdempotent := by
  unfold Obligations.ResetIsIdempotent
  exact ⟨fun s => resetOp_eq_of_load_group_eq (resetOp_program s) (resetOp_input s),
    fun _ _ => resetOp_eq_of_load_group_eq⟩

/-- Settles O46: a run begins with a reset. -/
theorem runDependsOnlyOnProgramAndInput : Obligations.RunDependsOnlyOnProgramAndInput := by
  unfold Obligations.RunDependsOnlyOnProgramAndInput
  intro fuel s s' hprog hin
  rw [issue_run, issue_run, resetOp_eq_of_load_group_eq hprog hin]

/-- Settles O40: both loads by their equations; the second keeps what the first loaded. -/
theorem loadsReplaceAndReset : Obligations.LoadsReplaceAndReset := by
  unfold Obligations.LoadsReplaceAndReset
  exact fun fuel tokens bytes s => ⟨issue_loadProgram fuel tokens s, issue_loadInput fuel bytes s, rfl⟩

/-- Settles O41: whether the load fits. -/
theorem oversizeLoadsAreRefused : Obligations.OversizeLoadsAreRefused := by
  unfold Obligations.OversizeLoadsAreRefused
  refine fun limit tokens bytes s => ⟨fun hbig => ?_, fun hfits => ?_, fun hbig => ?_, fun hfits => ?_⟩
  · rw [loadProgramUnder, fits_some, if_neg (by simpa using hbig)]
  · rw [loadProgramUnder, fits_some, if_pos (decide_eq_true hfits)]
    rfl
  · rw [loadInputUnder, fits_some, if_neg (by simpa using hbig)]
  · rw [loadInputUnder, fits_some, if_pos (decide_eq_true hfits)]
    rfl

/-! ### Power-on and query -/

/-- Settles O37: the one step at power-on fetches the `HALT`, where `run` returns. -/
theorem powerOnState : Obligations.PowerOnState := by
  unfold Obligations.PowerOnState
  have hhalt : State.reset.program[State.reset.pc]? = some (encode .halt) := rfl
  have hstep : step State.reset = .next { State.reset with pc := 1 } :=
    step_of_halt_entry (assemble_wf []) hhalt
  refine ⟨rfl, rfl, fun _ => rfl, rfl, rfl, rfl, rfl, rfl, hstep, fun fuel => ?_⟩
  have hreset : resetOp State.reset = State.reset := rfl
  rw [issue_run, hreset, runLoop_step fuel Nat.zero_lt_one hstep, if_pos (nextInstr_of_encode hhalt)]

/-- Settles O47: the snapshot reads the tape cell by cell. -/
theorem queryShowsTheFourExposedElements : Obligations.QueryShowsTheFourExposedElements := by
  unfold Obligations.QueryShowsTheFourExposedElements
  refine ⟨fun s => ⟨rfl, rfl, rfl, ?_, fun a => ?_⟩, fun s s' hpc hmp htape hout => ?_⟩
  · simp [query]
  · simp [query]
  · simp only [query, memRead, hpc, hmp, htape, hout]

end Sys2Proof.Machine
end
